-- ==== Sys2Proof/Word.lean ====
section
/-! DEFINITION. The machine's words: bytes, 16-bit words and the indices an instruction field can hold. -/

namespace Sys2Proof

/-- A memory byte, a general register, a timer or an immediate `kk` (10_state.md R20, 30_encoding.md R70). -/
abbrev Byte := BitVec 8

/-- An opcode word, `pc`, `I` or a return address (00_scope.md R6, R7). -/
abbrev Word := BitVec 16

/-- The 12-bit address operand `nnn` (30_encoding.md R70). -/
abbrev Addr12 := BitVec 12

/-- The number of a general register, V0 to VF (10_state.md R21). -/
abbrev Reg := Fin 16

/-- The register that doubles as the flag (10_state.md R23). -/
abbrev flagReg : Reg := 15

/-- The 4-bit count `n` of `Dxyn`, 0 to 15 (30_encoding.md R71). -/
abbrev Count := Fin 16

/-- A key number, 0x0 to 0xF (43_keys_timers.md R170). -/
abbrev KeyIdx := Fin 16

/-- The byte 1 for true and 0 for false: the two values a flag takes (10_state.md R23). -/
def bitByte (b : Bool) : Byte := if b then 1#8 else 0#8

end Sys2Proof
end

