-- ==== Sys2Proof/Config.lean ====
section
/-! DEFINITION. What an implementation fixes: the type of the `VF_ORDER` parameter, and the free values. -/

namespace Sys2Proof

/-- Which write is last when VF is both destination and flag (00_scope.md R6, 92_eei_decisions.md D2). -/
inductive VfOrder where
  | flagLast
  | resultLast
deriving DecidableEq, Repr

/-- FREE VALUE. The byte the random source supplies at the `k`-th draw (41_alu.md R133, D18).
It has no body, so no proof can know a value of it: a statement holds for every sequence of draws.
DESIGN CHOICE, safe (log entry 2). -/
opaque Config.randomByte : Nat → Byte

end Sys2Proof
end

