-- ==== Sys2Proof/Machine/Params.lean ====
section
/-! DEFINITION. The values this hardware takes for the named parameters of 00_scope.md R6
(92_eei_decisions.md, "Parameters a model takes"). -/

namespace Sys2Proof.Machine

/-- `HAS_FX18`: `Fx18` is decoded (D6). UNVERIFIED by the source, unsafe (log entry 6). -/
def hasFx18 : Bool := true

/-- `VF_ORDER`: the flag is written last (D2). UNVERIFIED by the source, unsafe (log entry 5). -/
def vfOrder : VfOrder := .flagLast

/-- `FONT`: the 80 glyph bytes, glyph `g` at `5 * g`, the default table of 70_reset_and_hazards.md R242
(D15). UNVERIFIED by the source, unsafe (log entry 4). -/
def font : List Byte :=
  [0xF0, 0x90, 0x90, 0x90, 0xF0,   0x20, 0x60, 0x20, 0x20, 0x70,
   0xF0, 0x10, 0xF0, 0x80, 0xF0,   0xF0, 0x10, 0xF0, 0x10, 0xF0] ++
  [0x90, 0x90, 0xF0, 0x10, 0x10,   0xF0, 0x80, 0xF0, 0x10, 0xF0,
   0xF0, 0x80, 0xF0, 0x90, 0xF0,   0xF0, 0x10, 0x20, 0x40, 0x40] ++
  [0xF0, 0x90, 0xF0, 0x90, 0xF0,   0xF0, 0x90, 0xF0, 0x10, 0xF0,
   0xF0, 0x90, 0xF0, 0x90, 0x90,   0xE0, 0x90, 0xE0, 0x90, 0xE0] ++
  [0xF0, 0x80, 0x80, 0x80, 0xF0,   0xE0, 0x90, 0x90, 0x90, 0xE0,
   0xF0, 0x80, 0xF0, 0x80, 0xF0,   0xF0, 0x80, 0xF0, 0x80, 0x80]

end Sys2Proof.Machine
end

