-- ==== Sys2Proof/Syntax.lean ====
section
/-! DEFINITION. The instructions: one constructor for each row of spec/opcode_table.json, in its order. -/

namespace Sys2Proof

/-- An instruction with its operand fields (30_encoding.md R70, R72, R79). -/
inductive Instr where
  /-- `00E0` CLS (R156). -/
  | cls
  /-- `00EE` RET (R100). -/
  | ret
  /-- `1nnn` JP nnn (R101). -/
  | jp (nnn : Addr12)
  /-- `2nnn` CALL nnn (R102). -/
  | call (nnn : Addr12)
  /-- `3xkk` SE Vx, kk (R103). -/
  | seImm (x : Reg) (kk : Byte)
  /-- `4xkk` SNE Vx, kk (R104). -/
  | sneImm (x : Reg) (kk : Byte)
  /-- `5xy0` SE Vx, Vy (R105). -/
  | seReg (x y : Reg)
  /-- `6xkk` LD Vx, kk (R122). -/
  | ldImm (x : Reg) (kk : Byte)
  /-- `7xkk` ADD Vx, kk (R123). -/
  | addImm (x : Reg) (kk : Byte)
  /-- `8xy0` LD Vx, Vy (R124). -/
  | ldReg (x y : Reg)
  /-- `8xy1` OR Vx, Vy (R125). -/
  | or (x y : Reg)
  /-- `8xy2` AND Vx, Vy (R126). -/
  | and (x y : Reg)
  /-- `8xy3` XOR Vx, Vy (R127). -/
  | xor (x y : Reg)
  /-- `8xy4` ADD Vx, Vy (R128). -/
  | addReg (x y : Reg)
  /-- `8xy5` SUB Vx, Vy (R129). -/
  | sub (x y : Reg)
  /-- `8xy6` SHR Vx (R130); `y` is encoded and ignored (DEDUCED, safe, log entry 9). -/
  | shr (x y : Reg)
  /-- `8xy7` SUBN Vx, Vy (R131). -/
  | subn (x y : Reg)
  /-- `8xyE` SHL Vx (R132); `y` is encoded and ignored (DEDUCED, safe, log entry 9). -/
  | shl (x y : Reg)
  /-- `9xy0` SNE Vx, Vy (R106). -/
  | sneReg (x y : Reg)
  /-- `Annn` LD I, nnn (R190). -/
  | ldI (nnn : Addr12)
  /-- `Bnnn` JP V0, nnn (R107). -/
  | jpV0 (nnn : Addr12)
  /-- `Cxkk` RND Vx, kk (R133). -/
  | rnd (x : Reg) (kk : Byte)
  /-- `Dxyn` DRW Vx, Vy, n (R157). -/
  | drw (x y : Reg) (n : Count)
  /-- `Ex9E` SKP Vx (R174). -/
  | skp (x : Reg)
  /-- `ExA1` SKNP Vx (R175). -/
  | sknp (x : Reg)
  /-- `Fx07` LD Vx, DT (R176). -/
  | ldVxDt (x : Reg)
  /-- `Fx0A` LD Vx, K (R177). -/
  | ldVxK (x : Reg)
  /-- `Fx15` LD DT, Vx (R178). -/
  | ldDtVx (x : Reg)
  /-- `Fx18` LD ST, Vx (R179). -/
  | ldStVx (x : Reg)
  /-- `Fx1E` ADD I, Vx (R191). -/
  | addI (x : Reg)
  /-- `Fx29` LD F, Vx (R192). -/
  | ldF (x : Reg)
  /-- `Fx33` LD B, Vx (R193). -/
  | ldB (x : Reg)
  /-- `Fx55` LD [I], Vx (R194). -/
  | ldMemV (x : Reg)
  /-- `Fx65` LD Vx, [I] (R195). -/
  | ldVMem (x : Reg)
deriving DecidableEq, Repr

end Sys2Proof
end

