-- ==== Sys2Proof/WellFormed.lean ====
section
/-! DEFINITION. Which instructions the machine has. Every operand field is bounded by its type, so the one
check left is the parameter `HAS_FX18` (43_keys_timers.md R179, 92_eei_decisions.md D6). -/

namespace Sys2Proof

/-- The instructions a core with the given `HAS_FX18` has: all of them, and `Fx18` only if it is true. -/
def Instr.wellFormedWith (fx18 : Bool) : Instr → Bool
  | .ldStVx _ => fx18
  | .cls | .ret | .jp _ | .call _ | .seImm _ _ | .sneImm _ _ | .seReg _ _ | .ldImm _ _ | .addImm _ _
  | .ldReg _ _ | .or _ _ | .and _ _ | .xor _ _ | .addReg _ _ | .sub _ _ | .shr _ _ | .subn _ _ | .shl _ _
  | .sneReg _ _ | .ldI _ | .jpV0 _ | .rnd _ _ | .drw _ _ _ | .skp _ | .sknp _ | .ldVxDt _ | .ldVxK _
  | .ldDtVx _ | .addI _ | .ldF _ | .ldB _ | .ldMemV _ | .ldVMem _ => true

/-- The instructions this core has. -/
def Instr.wellFormed (i : Instr) : Bool := i.wellFormedWith Machine.hasFx18

end Sys2Proof
end

