-- ==== Sys2Proof/Decode.lean ====
section
/-! DEFINITION. Decoding a word or bytes to an instruction, rejecting by name, and the encoder. -/

namespace Sys2Proof

/-- Why a decode is refused. Each illegal-word name is a family of 30_encoding.md R77 and holds the word. -/
inductive DecodeError where
  /-- Fewer than the two bytes an instruction takes (R78). -/
  | tooShort (bytes : Nat)
  /-- `0nnn` other than `00E0` and `00EE`. -/
  | zeroFamily (w : Word)
  /-- `5xyn` with `n` not 0. -/
  | fiveFamily (w : Word)
  /-- `8xyn` with `n` 8 to D, or F. -/
  | eightFamily (w : Word)
  /-- `9xyn` with `n` not 0. -/
  | nineFamily (w : Word)
  /-- `Exkk` with `kk` neither 9E nor A1. -/
  | keyFamily (w : Word)
  /-- `Fxkk` with `kk` in no row of the table (and `Fx18` where `HAS_FX18` is false). -/
  | miscFamily (w : Word)
deriving DecidableEq, Repr

/-- `w[hi:lo]`, the unsigned field of bits `hi` down to `lo` (00_scope.md R8). -/
def bitField (w : Word) (hi lo : Nat) : Nat := w.toNat / 2 ^ lo % 2 ^ (hi + 1 - lo)

/-- The field `op`, bits 15..12 (R70). -/
def fieldOp (w : Word) : Nat := bitField w 15 12

/-- The field `x`, bits 11..8 (R70). -/
def fieldX (w : Word) : Reg := Fin.ofNat 16 (bitField w 11 8)

/-- The field `y`, bits 7..4 (R70). -/
def fieldY (w : Word) : Reg := Fin.ofNat 16 (bitField w 7 4)

/-- The field `n`, bits 3..0 (R70). -/
def fieldN (w : Word) : Count := Fin.ofNat 16 (bitField w 3 0)

/-- The field `kk`, bits 7..0 (R70). -/
def fieldKk (w : Word) : Byte := BitVec.ofNat 8 (bitField w 7 0)

/-- The field `nnn`, bits 11..0 (R70). -/
def fieldNnn (w : Word) : Addr12 := BitVec.ofNat 12 (bitField w 11 0)

/-- Family `0x0`: the whole word decides (R72, D4). -/
def decodeZero (w : Word) : Except DecodeError Instr :=
  if w = 0x00E0#16 then .ok .cls
  else if w = 0x00EE#16 then .ok .ret
  else .error (.zeroFamily w)

/-- Family `0x8`: `n` decides (R72). -/
def decodeEight (w : Word) : Except DecodeError Instr :=
  match bitField w 3 0 with
  | 0x0 => .ok (.ldReg (fieldX w) (fieldY w))
  | 0x1 => .ok (.or (fieldX w) (fieldY w))
  | 0x2 => .ok (.and (fieldX w) (fieldY w))
  | 0x3 => .ok (.xor (fieldX w) (fieldY w))
  | 0x4 => .ok (.addReg (fieldX w) (fieldY w))
  | 0x5 => .ok (.sub (fieldX w) (fieldY w))
  | 0x6 => .ok (.shr (fieldX w) (fieldY w))
  | 0x7 => .ok (.subn (fieldX w) (fieldY w))
  | 0xE => .ok (.shl (fieldX w) (fieldY w))
  | _ => .error (.eightFamily w)

/-- Family `0xE`: `kk` decides (R72). -/
def decodeKey (w : Word) : Except DecodeError Instr :=
  if bitField w 7 0 = 0x9E then .ok (.skp (fieldX w))
  else if bitField w 7 0 = 0xA1 then .ok (.sknp (fieldX w))
  else .error (.keyFamily w)

/-- Family `0xF`: `kk` decides; `0x18` only where `HAS_FX18` is true (R72, R179). -/
def decodeMisc (fx18 : Bool) (w : Word) : Except DecodeError Instr :=
  if bitField w 7 0 = 0x07 then .ok (.ldVxDt (fieldX w))
  else if bitField w 7 0 = 0x0A then .ok (.ldVxK (fieldX w))
  else if bitField w 7 0 = 0x15 then .ok (.ldDtVx (fieldX w))
  else if bitField w 7 0 = 0x18 ∧ fx18 = true then .ok (.ldStVx (fieldX w))
  else if bitField w 7 0 = 0x1E then .ok (.addI (fieldX w))
  else if bitField w 7 0 = 0x29 then .ok (.ldF (fieldX w))
  else if bitField w 7 0 = 0x33 then .ok (.ldB (fieldX w))
  else if bitField w 7 0 = 0x55 then .ok (.ldMemV (fieldX w))
  else if bitField w 7 0 = 0x65 then .ok (.ldVMem (fieldX w))
  else .error (.miscFamily w)

/-- The decode function of 30_encoding.md R72, for a core with the given `HAS_FX18`. -/
def decodeWordWith (fx18 : Bool) (w : Word) : Except DecodeError Instr :=
  match fieldOp w with
  | 0x0 => decodeZero w
  | 0x1 => .ok (.jp (fieldNnn w))
  | 0x2 => .ok (.call (fieldNnn w))
  | 0x3 => .ok (.seImm (fieldX w) (fieldKk w))
  | 0x4 => .ok (.sneImm (fieldX w) (fieldKk w))
  | 0x5 => if bitField w 3 0 = 0 then .ok (.seReg (fieldX w) (fieldY w)) else .error (.fiveFamily w)
  | 0x6 => .ok (.ldImm (fieldX w) (fieldKk w))
  | 0x7 => .ok (.addImm (fieldX w) (fieldKk w))
  | 0x8 => decodeEight w
  | 0x9 => if bitField w 3 0 = 0 then .ok (.sneReg (fieldX w) (fieldY w)) else .error (.nineFamily w)
  | 0xA => .ok (.ldI (fieldNnn w))
  | 0xB => .ok (.jpV0 (fieldNnn w))
  | 0xC => .ok (.rnd (fieldX w) (fieldKk w))
  | 0xD => .ok (.drw (fieldX w) (fieldY w) (fieldN w))
  | 0xE => decodeKey w
  | _ => decodeMisc fx18 w   -- 0xF: the field has four bits

/-- The decode function of this core. -/
def decodeWord (w : Word) : Except DecodeError Instr := decodeWordWith Machine.hasFx18 w

/-- Two bytes, high byte first, as a word (20_memory.md R55). -/
def wordOfBytes (hi lo : Byte) : Word := BitVec.ofNat 16 (hi.toNat * 256 + lo.toNat)

/-- The byte at the lower address of a word's two: bits 15..8 (20_memory.md R55). -/
def highByte (w : Word) : Byte := BitVec.ofNat 8 (bitField w 15 8)

/-- The byte at the higher address of a word's two: bits 7..0 (20_memory.md R55). -/
def lowByte (w : Word) : Byte := BitVec.ofNat 8 (bitField w 7 0)

/-- The first instruction of a run of bytes, with the bytes after it (R70, R78). -/
def decodeBytes : List Byte → Except DecodeError (Instr × List Byte)
  | hi :: lo :: rest =>
    match decodeWord (wordOfBytes hi lo) with
    | .ok i => .ok (i, rest)
    | .error e => .error e
  | bs => .error (.tooShort bs.length)

/-- The word whose bits are `w` in the opcode table's numbering, cut to the table's `nbits`. -/
def tableWord (nbits w : Nat) : Word := BitVec.ofNat 16 (w % 2 ^ nbits)

/-- The instruction the decoder reads from a table row's bits, laid out as the hardware stores them. -/
def decodeTableWord (nbits w : Nat) : Option Instr :=
  match decodeBytes [highByte (tableWord nbits w), lowByte (tableWord nbits w)] with
  | .ok (i, _) => some i
  | .error _ => none

/-- A word from its four nibbles, highest first. -/
def nibbles (a b c d : Nat) : Word := BitVec.ofNat 16 (a * 4096 + b * 256 + c * 16 + d)

/-- A word from `op`, `x` and `kk`. -/
def opXKk (op x kk : Nat) : Word := BitVec.ofNat 16 (op * 4096 + x * 256 + kk)

/-- A word from `op` and `nnn`. -/
def opNnn (op nnn : Nat) : Word := BitVec.ofNat 16 (op * 4096 + nnn)

/-- The word of an instruction, from the formats of spec/opcode_table.json. -/
def encode : Instr → Word
  | .cls => 0x00E0#16
  | .ret => 0x00EE#16
  | .jp nnn => opNnn 0x1 nnn.toNat
  | .call nnn => opNnn 0x2 nnn.toNat
  | .seImm x kk => opXKk 0x3 x.val kk.toNat
  | .sneImm x kk => opXKk 0x4 x.val kk.toNat
  | .seReg x y => nibbles 0x5 x.val y.val 0x0
  | .ldImm x kk => opXKk 0x6 x.val kk.toNat
  | .addImm x kk => opXKk 0x7 x.val kk.toNat
  | .ldReg x y => nibbles 0x8 x.val y.val 0x0
  | .or x y => nibbles 0x8 x.val y.val 0x1
  | .and x y => nibbles 0x8 x.val y.val 0x2
  | .xor x y => nibbles 0x8 x.val y.val 0x3
  | .addReg x y => nibbles 0x8 x.val y.val 0x4
  | .sub x y => nibbles 0x8 x.val y.val 0x5
  | .shr x y => nibbles 0x8 x.val y.val 0x6
  | .subn x y => nibbles 0x8 x.val y.val 0x7
  | .shl x y => nibbles 0x8 x.val y.val 0xE
  | .sneReg x y => nibbles 0x9 x.val y.val 0x0
  | .ldI nnn => opNnn 0xA nnn.toNat
  | .jpV0 nnn => opNnn 0xB nnn.toNat
  | .rnd x kk => opXKk 0xC x.val kk.toNat
  | .drw x y n => nibbles 0xD x.val y.val n.val
  | .skp x => opXKk 0xE x.val 0x9E
  | .sknp x => opXKk 0xE x.val 0xA1
  | .ldVxDt x => opXKk 0xF x.val 0x07
  | .ldVxK x => opXKk 0xF x.val 0x0A
  | .ldDtVx x => opXKk 0xF x.val 0x15
  | .ldStVx x => opXKk 0xF x.val 0x18
  | .addI x => opXKk 0xF x.val 0x1E
  | .ldF x => opXKk 0xF x.val 0x29
  | .ldB x => opXKk 0xF x.val 0x33
  | .ldMemV x => opXKk 0xF x.val 0x55
  | .ldVMem x => opXKk 0xF x.val 0x65

/-- The bytes of an instruction as memory holds them (20_memory.md R55). -/
def encodeBytes (i : Instr) : List Byte := [highByte (encode i), lowByte (encode i)]

end Sys2Proof
end

