-- ==== Sys2Proof/Machine/State.lean ====
section
/-! DEFINITION. The state of 10_state.md R20 as plain data, the fault reasons, and the state after reset. -/

namespace Sys2Proof.Machine

/-- The direction an `AddressFault` records (60_exceptions.md R211). -/
inductive Direction where
  | read
  | write
  | fetch
deriving DecidableEq, Repr

/-- The fault kinds of 60_exceptions.md R210, each with the detail of R217. A faulting step RECORDS one of these
in `State.fault` and is a next state (R217); no step answers `Outcome.fault` (DEDUCED, safe, log entry 1). -/
inductive Fault where
  /-- `AddressFault` (code 1): raised by a fetch, `Dxyn`, `Fx33`, `Fx55`, `Fx65` and the host's ROM load when
  `addr + n > 4096` (R211). Safe: the spec's own stop. -/
  | address (addr n : Nat) (dir : Direction)
  /-- `DecodeFault` (code 2): raised by a step whose fetched word is illegal (R212). Safe. -/
  | decode
  /-- `StackUnderflow` (code 3): raised by `00EE` with an empty stack (R213). Safe. -/
  | stackUnderflow
  /-- `KeyIndexFault` (code 4): raised by `Ex9E` and `ExA1` when `V[x]` is 16 or more (R214). Safe. -/
  | keyIndex (k : Byte)
deriving DecidableEq, Repr

/-- Why the model has no meaning for an instruction. -/
inductive Refusal where
  /-- Raised by an arm of `exec` for an instruction without a meaning. Safe. No arm raises it: every instruction
  of the table has its meaning. -/
  | notModelled (mnemonic : String)
deriving DecidableEq, Repr

/-- The halt record of 60_exceptions.md R217: kind, code and detail are those of `cause`. -/
structure FaultRecord where
  /-- The kind of fault, with its detail. -/
  cause : Fault
  /-- The pc of the faulting step. -/
  pc : Word
  /-- The opcode word, if the fetch succeeded. -/
  word : Option Word
deriving DecidableEq, Repr

/-- Memory: the cells that differ from the reset contents, by rising address (20_memory.md R50; `Memory.wf`). -/
abbrev Memory := List Host.Cell

/-- The framebuffer: 32 rows of 64 cells, `true` for 1 (42_display.md R150; DEDUCED, safe, log entry 10). -/
abbrev Framebuffer := Vector (Vector Bool 64) 32

/-- The state of 10_state.md R20. -/
structure State where
  /-- V0 to VF (R21). -/
  v : Vector Byte 16
  /-- The address register `I` (R26). -/
  i : Word
  /-- The program counter (R24). -/
  pc : Word
  /-- The call stack, top at the end (R30). -/
  stack : List Word
  /-- The delay timer (R27). -/
  dt : Byte
  /-- The sound timer (R28). -/
  st : Byte
  /-- Memory (R31). -/
  mem : Memory
  /-- The framebuffer (R32). -/
  fb : Framebuffer
  /-- The keyboard state (R33). -/
  key : Vector Bool 16
  /-- The halt state: `none` while the core runs (R34). -/
  fault : Option FaultRecord
  /-- The model's own: how many random draws have been taken (41_alu.md R133; DESIGN CHOICE, safe, log entry 2). -/
  draws : Nat
deriving DecidableEq, Repr

/-- The outcome of an instruction or of a step. -/
abbrev Result := Host.Outcome State Fault Refusal

/-- The dark framebuffer (42_display.md R151). -/
def blankFb : Framebuffer := Vector.replicate 32 (Vector.replicate 64 false)

/-- The reset state of 70_reset_and_hazards.md R241. Memory lists nothing: unlisted cells read as their reset
contents. `draws` is the model's own (DESIGN CHOICE, log entry 3). -/
def State.reset : State where
  v := Vector.replicate 16 0#8
  i := 0#16
  pc := 0x200#16
  stack := []
  dt := 0#8
  st := 0#8
  mem := []
  fb := blankFb
  key := Vector.replicate 16 false
  fault := none
  draws := 0

end Sys2Proof.Machine
end

