-- ==== Sys2Proof/Machine/Ops.lean ====
section
/-! DEFINITION. The operations over memory, registers, pc, timers and faults that every instruction shares. -/

namespace Sys2Proof.Machine

/-! Memory. -/

/-- The reset contents of an address where `FONT` is `glyphs` (00_scope.md R6, 70_reset_and_hazards.md R241, R242): the
glyph bytes from address 0 on, and 0 after them (UNVERIFIED by the source, unsafe, log entry 8). -/
def resetByte (glyphs : List Byte) (a : Nat) : Byte := glyphs.getD a 0#8

/-- What an unlisted address reads as: the reset contents with the default `FONT` (log entry 4). Memory whose `FONT` is
another lists the bytes that differ (`Memory.seeded`). -/
def Memory.unlisted (a : Nat) : Byte := resetByte font a

/-- The byte at address `a` (20_memory.md R53). -/
def Memory.read : Memory → Nat → Byte
  | [], a => Memory.unlisted a
  | (b, u) :: m, a => if a = b then u else Memory.read m a

/-- Store the byte `w` at address `a`, keeping the list sorted and free of cells that hold their reset
contents (20_memory.md R52, R53). -/
def Memory.write : Memory → Nat → Byte → Memory
  | [], a, w => if w = Memory.unlisted a then [] else [(a, w)]
  | (b, u) :: m, a, w =>
    if a < b then (if w = Memory.unlisted a then (b, u) :: m else (a, w) :: (b, u) :: m)
    else if a = b then (if w = Memory.unlisted a then m else (a, w) :: m)
    else (b, u) :: Memory.write m a w

/-- The `n` bytes from address `a`, ascending (20_memory.md R51). -/
def Memory.readBytes (m : Memory) (a : Nat) : Nat → List Byte
  | 0 => []
  | n + 1 => Memory.read m a :: Memory.readBytes m (a + 1) n

/-- Store bytes from address `a`, ascending (20_memory.md R52). -/
def Memory.writeBytes : Memory → Nat → List Byte → Memory
  | m, _, [] => m
  | m, a, w :: ws => Memory.writeBytes (Memory.write m a w) (a + 1) ws

/-- The memory a reset leaves where `FONT` is `glyphs`: glyph `g` stored at `5 * g` (70_reset_and_hazards.md R242). -/
def Memory.seeded (glyphs : List Byte) : Memory := Memory.writeBytes [] 0 glyphs

/-- The one form a memory may have: addresses strictly rising and below 4096, and no cell that holds its reset
contents. -/
abbrev Memory.wf (m : Memory) : Prop :=
  m.Pairwise (fun c d => c.1 < d.1) ∧ ∀ c ∈ m, c.1 < 4096 ∧ c.2 ≠ Memory.unlisted c.1

/-- `MemRead(addr, n)` of 20_memory.md R51: the range is checked as a whole, without wrap. -/
def memRead (m : Memory) (dir : Direction) (addr n : Nat) : Except Fault (List Byte) :=
  if addr + n > 4096 then .error (.address addr n dir) else .ok (Memory.readBytes m addr n)

/-- `MemWrite(addr, n, bs)` of 20_memory.md R52: the range is checked before any byte is written. -/
def memWrite (m : Memory) (addr : Nat) (bs : List Byte) : Except Fault Memory :=
  if addr + bs.length > 4096 then .error (.address addr bs.length .write) else .ok (Memory.writeBytes m addr bs)

/-! General registers: the one home of each (10_state.md R21, R22). -/

/-- `V[x]`. -/
def State.getV (s : State) (x : Reg) : Byte := s.v[x]

/-- `V[x] <- b`. -/
def State.setV (s : State) (x : Reg) (b : Byte) : State := { s with v := s.v.set x b }

/-! The program counter. -/

/-- `pc <- target` (40_control_flow.md R99). -/
def State.jumpTo (s : State) (target : Word) : State := { s with pc := target }

/-- The default advance `pc <- pc + 2` (30_encoding.md R74). Exact in every step (R76; DEDUCED, safe, log entry 11). -/
def State.advance (s : State) : State := s.jumpTo (s.pc + 2#16)

/-- The skip advance: `pc <- pc + 4` if the condition holds, else `pc + 2` (30_encoding.md R75). -/
def State.skipIf (s : State) (c : Bool) : State := s.jumpTo (if c then s.pc + 4#16 else s.pc + 2#16)

/-! Fetch. -/

/-- The fetch of 30_encoding.md R73: two bytes at `pc`, high byte first (20_memory.md R55). -/
def fetchWord (s : State) : Except Fault Word :=
  match memRead s.mem .fetch s.pc.toNat 2 with
  | .error e => .error e
  | .ok bs => .ok (wordOfBytes (bs.getD 0 0#8) (bs.getD 1 0#8))

/-- The word at `pc`, or `none` where the fetch fails: what a fault record holds as its word (60_exceptions.md R217). -/
def fetchedWord (s : State) : Option Word :=
  match fetchWord s with
  | .ok w => some w
  | .error _ => none

/-! Faults: taking one, and the only way out. -/

/-- The numeric code of a fault kind (60_exceptions.md R210). -/
def Fault.code : Fault → Nat
  | .address _ _ _ => 1
  | .decode => 2
  | .stackUnderflow => 3
  | .keyIndex _ => 4

/-- Fault entry (60_exceptions.md R217): the start-of-step state with only `fault` changed. -/
def State.raiseWith (s : State) (word : Option Word) (cause : Fault) : State :=
  { s with fault := some { cause := cause, pc := s.pc, word := word } }

/-- Fault entry of the executing instruction: its word is the one at `pc`, since a step has changed nothing
before it faults (60_exceptions.md R217; DEDUCED, safe, log entry 7). -/
def State.raise (s : State) (cause : Fault) : State := s.raiseWith (fetchedWord s) cause

/-- The reset state of the machine whose `FONT` is `glyphs` (00_scope.md R6, 92_eei_decisions.md D15). Only a reset reads
`FONT`, so this machine is the same `step` run from this state. -/
def State.resetWith (glyphs : List Byte) : State := { State.reset with mem := Memory.seeded glyphs }

/-- The host's reset of the machine whose `FONT` is `glyphs` (70_reset_and_hazards.md R240), the only way out of a halted
core (60_exceptions.md R218, R219). The random source is not reset, so the count of draws stays. -/
def State.hostResetWith (glyphs : List Byte) (s : State) : State := { State.resetWith glyphs with draws := s.draws }

/-- The host's reset with this hardware's `FONT`. -/
def State.hostReset (s : State) : State := s.hostResetWith font

/-! The random draw. -/

/-- The byte the random source supplies to the next draw (41_alu.md R133). -/
def State.nextDraw (s : State) : Byte := Config.randomByte s.draws

/-- The draw is taken: the next one is a fresh free value. -/
def State.takeDraw (s : State) : State := { s with draws := s.draws + 1 }

/-! The timers and the end of a step. -/

/-- A timer after one tick: one less, or 0 (43_keys_timers.md R173). -/
def countDown (b : Byte) : Byte := if b = 0#8 then 0#8 else b - 1#8

/-- The tick of both timers (43_keys_timers.md R173). -/
def State.tick (s : State) : State := { s with dt := countDown s.dt, st := countDown s.st }

/-- The end of a step that executed an instruction: the tick, unless the instruction faulted
(43_keys_timers.md R173, 60_exceptions.md R217). -/
def retire : Result → Result
  | .next t => .next (if t.fault = none then t.tick else t)
  | .fault r => .fault r
  | .refused r => .refused r

/-- The machine with the word `w` stored where the next step fetches it. A halted core fetches nothing and a pc of
4095 or more reaches no word, so there the fault is cleared or the pc is the entry point (DESIGN CHOICE, safe, log
entry 12). -/
def State.placeWord (s : State) (w : Word) : State :=
  let pc := if s.pc.toNat + 2 ≤ 4096 then s.pc else 0x200#16
  { s with
    pc := pc
    mem := Memory.writeBytes s.mem pc.toNat [highByte w, lowByte w]
    fault := none }

end Sys2Proof.Machine
end

