-- ==== Sys2Proof/Machine/Operands.lean ====
section
/-! DEFINITION. The operand forms: addresses, register blocks, digits and keys. -/

namespace Sys2Proof.Machine

/-- `zext_16(nnn)` (30_encoding.md R71). -/
def zext16 (nnn : Addr12) : Word := nnn.setWidth 16

/-- The target of `Bnnn`: `nnn + V0`, neither wrapped nor masked (40_control_flow.md R107). -/
def offsetTarget (nnn : Addr12) (v0 : Byte) : Word := BitVec.ofNat 16 (nnn.toNat + v0.toNat)

/-- The address of a data access: `I`, as an exact integer (44_index_memory.md R189). -/
def dataAddr (s : State) : Nat := s.i.toNat

/-- `(I + Vx) mod 2^16` (44_index_memory.md R191). -/
def indexSum (i : Word) (b : Byte) : Word := BitVec.ofNat 16 (i.toNat + b.toNat)

/-- `Vx * 5`, not masked (44_index_memory.md R192). -/
def glyphAddr (b : Byte) : Word := BitVec.ofNat 16 (b.toNat * 5)

/-- Hundreds, tens and ones (44_index_memory.md R193). -/
def bcdDigits (b : Byte) : List Byte :=
  [BitVec.ofNat 8 (b.toNat / 100), BitVec.ofNat 8 (b.toNat / 10 % 10), BitVec.ofNat 8 (b.toNat % 10)]

/-- The registers V0 to V[x], in order (44_index_memory.md R194). -/
def regBlock (s : State) (x : Reg) : List Byte := s.v.toList.take (x.val + 1)

/-- The register file with `bs` loaded from V0 on; registers past its end keep their value
(44_index_memory.md R195). -/
def loadBlock (v : Vector Byte 16) (bs : List Byte) : Vector Byte 16 :=
  Vector.ofFn fun r : Fin 16 => bs.getD r.val v[r]

/-- The key a register value names, if it names one (43_keys_timers.md R171). -/
def keyOf (b : Byte) : Option KeyIdx := if h : b.toNat < 16 then some ⟨b.toNat, h⟩ else none

/-- `first_pressed()`: the lowest key index whose state is true (43_keys_timers.md R172). -/
def firstPressed (key : Vector Bool 16) : Option KeyIdx := (List.finRange 16).find? fun k => key[k]

end Sys2Proof.Machine
end

