-- ==== Sys2Proof/Machine/Flags.lean ====
section
/-! DEFINITION. The arithmetic of family 8 with the flag each operation forms, and the order of the two writes.
Each is computed on integers and narrowed at the end (00_scope.md R9, 41_alu.md R120). -/

namespace Sys2Proof.Machine

/-- `(a + b) mod 2^8` (41_alu.md R123, R128). -/
def sumByte (a b : Byte) : Byte := BitVec.ofNat 8 (a.toNat + b.toNat)

/-- The carry of `8xy4`: the unsigned sum exceeds 255 (41_alu.md R128). -/
def carryOut (a b : Byte) : Bool := decide (a.toNat + b.toNat > 255)

/-- `(a - b) mod 2^8` (41_alu.md R129, R131). -/
def diffByte (a b : Byte) : Byte := BitVec.ofNat 8 (a.toNat + 256 - b.toNat)

/-- The flag of a subtraction `a - b`: strictly greater (41_alu.md R129, R131). -/
def strictlyAbove (a b : Byte) : Bool := decide (a.toNat > b.toNat)

/-- `a >> 1` (41_alu.md R130). -/
def shrByte (a : Byte) : Byte := BitVec.ofNat 8 (a.toNat / 2)

/-- The flag of `8xy6`: bit 0 before the shift (41_alu.md R130). -/
def lowBit (a : Byte) : Bool := decide (a.toNat % 2 = 1)

/-- `(a << 1) mod 2^8` (41_alu.md R132). -/
def shlByte (a : Byte) : Byte := BitVec.ofNat 8 (a.toNat * 2)

/-- The flag of `8xyE`: bit 7 before the shift (41_alu.md R132). -/
def topBit (a : Byte) : Bool := decide (a.toNat / 128 % 2 = 1)

/-- The two writes of a flag-setting instruction, in the order `VF_ORDER` gives (41_alu.md R121, D2). -/
def State.setResultFlagWith (order : VfOrder) (s : State) (x : Reg) (result : Byte) (flag : Bool) : State :=
  match order with
  | .flagLast => (s.setV x result).setV flagReg (bitByte flag)
  | .resultLast => (s.setV flagReg (bitByte flag)).setV x result

/-- The two writes in this core's order: the flag last (41_alu.md R121). -/
def State.setResultFlag (s : State) (x : Reg) (result : Byte) (flag : Bool) : State :=
  s.setResultFlagWith vfOrder x result flag

end Sys2Proof.Machine
end

