-- ==== Sys2Proof/Machine/Alu.lean ====
section
/-! DEFINITION. Register arithmetic and logic, and the random byte (41_alu.md). -/

namespace Sys2Proof.Machine

/-- `6xkk` LD Vx, kk (R122). -/
def execLdImm (x : Reg) (kk : Byte) (s : State) : Result := .next (s.setV x kk).advance

/-- `7xkk` ADD Vx, kk: no flag (R123). -/
def execAddImm (x : Reg) (kk : Byte) (s : State) : Result := .next (s.setV x (sumByte (s.getV x) kk)).advance

/-- `8xy0` LD Vx, Vy (R124). -/
def execLdReg (x y : Reg) (s : State) : Result := .next (s.setV x (s.getV y)).advance

/-- `8xy1` OR Vx, Vy (R125). -/
def execOr (x y : Reg) (s : State) : Result := .next (s.setV x (s.getV x ||| s.getV y)).advance

/-- `8xy2` AND Vx, Vy (R126). -/
def execAnd (x y : Reg) (s : State) : Result := .next (s.setV x (s.getV x &&& s.getV y)).advance

/-- `8xy3` XOR Vx, Vy (R127). -/
def execXor (x y : Reg) (s : State) : Result := .next (s.setV x (s.getV x ^^^ s.getV y)).advance

/-- `8xy4` ADD Vx, Vy (R128). -/
def execAddReg (x y : Reg) (s : State) : Result :=
  .next (s.setResultFlag x (sumByte (s.getV x) (s.getV y)) (carryOut (s.getV x) (s.getV y))).advance

/-- `8xy5` SUB Vx, Vy (R129). -/
def execSub (x y : Reg) (s : State) : Result :=
  .next (s.setResultFlag x (diffByte (s.getV x) (s.getV y)) (strictlyAbove (s.getV x) (s.getV y))).advance

/-- `8xy6` SHR Vx; V[y] is not read (R130). -/
def execShr (x _y : Reg) (s : State) : Result :=
  .next (s.setResultFlag x (shrByte (s.getV x)) (lowBit (s.getV x))).advance

/-- `8xy7` SUBN Vx, Vy (R131). -/
def execSubn (x y : Reg) (s : State) : Result :=
  .next (s.setResultFlag x (diffByte (s.getV y) (s.getV x)) (strictlyAbove (s.getV y) (s.getV x))).advance

/-- `8xyE` SHL Vx; V[y] is not read (R132). -/
def execShl (x _y : Reg) (s : State) : Result :=
  .next (s.setResultFlag x (shlByte (s.getV x)) (topBit (s.getV x))).advance

/-- The effect of `Cxkk` with the draw `r` (R133). -/
def State.rndWith (s : State) (r : Byte) (x : Reg) (kk : Byte) : State := (s.setV x (r &&& kk)).takeDraw.advance

/-- `Cxkk` RND Vx, kk: the draw is a free value (R133; DESIGN CHOICE, safe, log entry 2). -/
def execRnd (x : Reg) (kk : Byte) (s : State) : Result := .next (s.rndWith s.nextDraw x kk)

end Sys2Proof.Machine
end

