-- ==== Sys2Proof/Machine/Control.lean ====
section
/-! DEFINITION. Returns, jumps, calls and skips (40_control_flow.md). -/

namespace Sys2Proof.Machine

/-- `00EE` RET (R100, R213). -/
def execRet (s : State) : Result :=
  match s.stack.getLast? with
  | none => .next (s.raise .stackUnderflow)
  | some target => .next (({ s with stack := s.stack.dropLast } : State).jumpTo target)

/-- `1nnn` JP nnn (R101). -/
def execJp (nnn : Addr12) (s : State) : Result := .next (s.jumpTo (zext16 nnn))

/-- `2nnn` CALL nnn (R102). -/
def execCall (nnn : Addr12) (s : State) : Result :=
  .next (({ s with stack := s.stack ++ [s.pc + 2#16] } : State).jumpTo (zext16 nnn))

/-- `3xkk` SE Vx, kk (R103). -/
def execSeImm (x : Reg) (kk : Byte) (s : State) : Result := .next (s.skipIf (s.getV x == kk))

/-- `4xkk` SNE Vx, kk (R104). -/
def execSneImm (x : Reg) (kk : Byte) (s : State) : Result := .next (s.skipIf (s.getV x != kk))

/-- `5xy0` SE Vx, Vy (R105). -/
def execSeReg (x y : Reg) (s : State) : Result := .next (s.skipIf (s.getV x == s.getV y))

/-- `9xy0` SNE Vx, Vy (R106). -/
def execSneReg (x y : Reg) (s : State) : Result := .next (s.skipIf (s.getV x != s.getV y))

/-- `Bnnn` JP V0, nnn (R107). -/
def execJpV0 (nnn : Addr12) (s : State) : Result := .next (s.jumpTo (offsetTarget nnn (s.getV 0)))

end Sys2Proof.Machine
end

