-- ==== Sys2Proof/Machine/Display.lean ====
section
/-! DEFINITION. The framebuffer's clear, the sprite compositor with its collision bit, the snapshot, and the two
instructions that drive them (42_display.md). -/

namespace Sys2Proof.Machine

/-- The bit of a sprite byte drawn at `bit_offset` `b`: bit 7 is drawn first (42_display.md R152). -/
def spriteBit (byte : Byte) (b : Nat) : Bool := decide (byte.toNat / 2 ^ (7 - b) % 2 = 1)

/-- `FB[row][col]` after an XOR with `bit` (42_display.md R152). -/
def xorCell (fb : Framebuffer) (row : Fin 32) (col : Fin 64) (bit : Bool) : Framebuffer :=
  fb.set row (fb[row].set col (fb[row][col] ^^ bit))

/-- One pixel of the loop of R152: the cells so far and the collision so far. -/
def drawPixel (x : Nat) (row : Fin 32) (byte : Byte) (p : Framebuffer × Bool) (b : Nat) : Framebuffer × Bool :=
  let bit := spriteBit byte b
  let col := Fin.ofNat 64 (x + b)
  (xorCell p.1 row col bit, p.2 || (bit && p.1[row][col]))

/-- One row of the loop of R152: eight pixels, columns wrapping modulo 64. -/
def drawRow (x : Nat) (row : Fin 32) (byte : Byte) (p : Framebuffer × Bool) : Framebuffer × Bool :=
  [0, 1, 2, 3, 4, 5, 6, 7].foldl (drawPixel x row byte) p

/-- The rows of the loop of R152 from row `y` on, rows wrapping modulo 32. -/
def drawRows (x : Nat) : Nat → List Byte → Framebuffer × Bool → Framebuffer × Bool
  | _, [], p => p
  | y, byte :: bytes, p => drawRows x (y + 1) bytes (drawRow x (Fin.ofNat 32 y) byte p)

/-- `draw(x, y, bytes)`: the new framebuffer and the collision bit (42_display.md R152, R153). -/
def drawSprite (fb : Framebuffer) (x y : Nat) (bytes : List Byte) : Framebuffer × Bool :=
  drawRows x y bytes (fb, false)

/-- `get_snapshot()`: 2048 bytes, each 0 or 1, row-major, origin top-left (42_display.md R150, R154). -/
def snapshot (fb : Framebuffer) : List Byte :=
  (List.range 2048).map fun k => bitByte fb[Fin.ofNat 32 (k / 64)][Fin.ofNat 64 k]

/-- `00E0` CLS (42_display.md R156). -/
def execCls (s : State) : Result := .next ({ s with fb := blankFb } : State).advance

/-- `Dxyn` DRW Vx, Vy, n (42_display.md R157). -/
def execDrw (x y : Reg) (n : Count) (s : State) : Result :=
  match memRead s.mem .read (dataAddr s) n.val with
  | .error e => .next (s.raise e)
  | .ok bytes =>
    let drawn := drawSprite s.fb (s.getV x).toNat (s.getV y).toNat bytes
    .next (({ s with fb := drawn.1 } : State).setV flagReg (bitByte drawn.2)).advance

end Sys2Proof.Machine
end

