-- ==== Sys2Proof/Machine/Index.lean ====
section
/-! DEFINITION. The address register, digits and block transfers (44_index_memory.md). -/

namespace Sys2Proof.Machine

/-- `Annn` LD I, nnn (R190). -/
def execLdI (nnn : Addr12) (s : State) : Result := .next ({ s with i := zext16 nnn } : State).advance

/-- `Fx1E` ADD I, Vx: no flag (R191). -/
def execAddI (x : Reg) (s : State) : Result := .next ({ s with i := indexSum s.i (s.getV x) } : State).advance

/-- `Fx29` LD F, Vx (R192). -/
def execLdF (x : Reg) (s : State) : Result := .next ({ s with i := glyphAddr (s.getV x) } : State).advance

/-- Store bytes at `I` and advance, or take the `AddressFault` with nothing written (20_memory.md R52). -/
def State.storeAtI (s : State) (bs : List Byte) : State :=
  match memWrite s.mem (dataAddr s) bs with
  | .error e => s.raise e
  | .ok m => ({ s with mem := m } : State).advance

/-- `Fx33` LD B, Vx (R193). -/
def execLdB (x : Reg) (s : State) : Result := .next (s.storeAtI (bcdDigits (s.getV x)))

/-- `Fx55` LD [I], Vx: `I` stays (R194). -/
def execLdMemV (x : Reg) (s : State) : Result := .next (s.storeAtI (regBlock s x))

/-- `Fx65` LD Vx, [I]: `I` stays (R195). -/
def execLdVMem (x : Reg) (s : State) : Result :=
  match memRead s.mem .read (dataAddr s) (x.val + 1) with
  | .error e => .next (s.raise e)
  | .ok bs => .next ({ s with v := loadBlock s.v bs } : State).advance

end Sys2Proof.Machine
end

