-- ==== Sys2Proof/Machine/KeysTimers.lean ====
section
/-! DEFINITION. Key tests, the key wait and the timer moves (43_keys_timers.md). The tick that follows each of them
is in `retire`. -/

namespace Sys2Proof.Machine

/-- The key tests: skip where the key's state is `want` (R174, R175), and `KeyIndexFault` for a value of 16 or more
(R171, 60_exceptions.md R214). -/
def State.skipOnKey (s : State) (x : Reg) (want : Bool) : State :=
  match keyOf (s.getV x) with
  | none => s.raise (.keyIndex (s.getV x))
  | some k => s.skipIf (s.key[k] == want)

/-- `Ex9E` SKP Vx (R174). -/
def execSkp (x : Reg) (s : State) : Result := .next (s.skipOnKey x true)

/-- `ExA1` SKNP Vx (R175). -/
def execSknp (x : Reg) (s : State) : Result := .next (s.skipOnKey x false)

/-- `Fx07` LD Vx, DT: the value before this step's tick (R176). -/
def execLdVxDt (x : Reg) (s : State) : Result := .next (s.setV x s.dt).advance

/-- `Fx0A` LD Vx, K: with no key pressed the pc stays and the instruction runs again (R177). -/
def execLdVxK (x : Reg) (s : State) : Result :=
  match firstPressed s.key with
  | none => .next s
  | some k => .next (s.setV x (BitVec.ofNat 8 k.val)).advance

/-- `Fx15` LD DT, Vx (R178). -/
def execLdDtVx (x : Reg) (s : State) : Result := .next ({ s with dt := s.getV x } : State).advance

/-- `Fx18` LD ST, Vx (R179). -/
def execLdStVx (x : Reg) (s : State) : Result := .next ({ s with st := s.getV x } : State).advance

end Sys2Proof.Machine
end

