-- ==== Sys2Proof/Machine/Step.lean ====
section
/-! DEFINITION. One step: halted check, fetch, decode, execute, tick (30_encoding.md R73). -/

namespace Sys2Proof.Machine

/-- The step of 30_encoding.md R73. A halted core's step changes nothing (60_exceptions.md R218); a fetch or decode
fault is recorded (R217) with the word if it was fetched. -/
def step (s : State) : Host.Outcome State Fault Refusal :=
  match s.fault with
  | some _ => .next s
  | none =>
    match fetchWord s with
    | .error e => .next (s.raiseWith none e)
    | .ok w =>
      match decodeWord w with
      | .error _ => .next (s.raiseWith (some w) .decode)
      | .ok i => retire (exec i s)

/-- `s` with a table row's bits stored where `step` fetches next (log entry 12). -/
def State.withFetchWord (s : State) (nbits w : Nat) : State := s.placeWord (tableWord nbits w)

end Sys2Proof.Machine
end

