-- ==== Sys2Proof/Machine/HostOps.lean ====
section
/-! DEFINITION. The host's operations on the core, taken between steps (60_exceptions.md R227, R228). Its reset is
`State.hostReset`, beside the fault entry in Machine/Ops.lean. -/

namespace Sys2Proof.Machine

/-- `load_rom(bytes)` where `FONT` is `glyphs` (70_reset_and_hazards.md R243): reset, then the bytes from 0x200; a ROM of
more than 3584 bytes leaves the reset state with an `AddressFault` recorded and no word. -/
def State.loadRomWith (glyphs : List Byte) (s : State) (bytes : List Byte) : State :=
  match memWrite (s.hostResetWith glyphs).mem 0x200 bytes with
  | .error e => (s.hostResetWith glyphs).raiseWith none e
  | .ok m => { s.hostResetWith glyphs with mem := m }

/-- `load_rom(bytes)` with this hardware's `FONT`. -/
def State.loadRom (s : State) (bytes : List Byte) : State := s.loadRomWith font bytes

/-- `set_key_state(k, b)` for a key 0 to 15; other numbers are no host action (R227, 92_eei_decisions.md D27). -/
def State.setKey (s : State) (k : KeyIdx) (b : Bool) : State := { s with key := s.key.set k b }

/-- `get_snapshot()` (42_display.md R154). -/
def State.getSnapshot (s : State) : List Byte := snapshot s.fb

/-- Fault observation (R227): the record, if the core is halted. -/
def State.observeFault (s : State) : Option FaultRecord := s.fault

end Sys2Proof.Machine
end

