-- ==== Sys2Proof/Safety.lean ====
section
/-! DEFINITION. The terms the statements use: frames, the faults that are due, sprite coverage and the invariant. -/

namespace Sys2Proof.Machine

/-! Frames. -/

/-- A part of the state that is neither a general register nor the pc. -/
inductive Part where
  | i
  | stack
  | dt
  | st
  | mem
  | fb
  | key
  | fault
  | draws
deriving DecidableEq, Repr

/-- A part is the same in two states; of memory, every byte reads the same. -/
def Part.Same (s t : State) : Part → Prop
  | .i => t.i = s.i
  | .stack => t.stack = s.stack
  | .dt => t.dt = s.dt
  | .st => t.st = s.st
  | .mem => ∀ a, Memory.read t.mem a = Memory.read s.mem a
  | .fb => t.fb = s.fb
  | .key => t.key = s.key
  | .fault => t.fault = s.fault
  | .draws => t.draws = s.draws

/-- From `s` to `t`, only the registers of `regs`, the parts of `parts` and the pc may differ. -/
def Frame (regs : List Reg) (parts : List Part) (s t : State) : Prop :=
  (∀ r, r ∉ regs → t.getV r = s.getV r) ∧ ∀ p, p ∉ parts → Part.Same s t p

/-- Every byte outside the `n` bytes from address `a` reads as before. -/
def SameOutside (a n : Nat) (s t : State) : Prop :=
  ∀ b, b < a ∨ a + n ≤ b → Memory.read t.mem b = Memory.read s.mem b

/-- The general registers an instruction may write: its destination, VF where it sets the flag, or the block
V0 to V[x] (the table of 10_state.md R20). -/
def writtenRegs : Instr → List Reg
  | .ldImm x _ | .addImm x _ | .ldReg x _ | .or x _ | .and x _ | .xor x _ | .rnd x _ | .ldVxDt x | .ldVxK x => [x]
  | .addReg x _ | .sub x _ | .shr x _ | .subn x _ | .shl x _ => [x, flagReg]
  | .drw _ _ _ => [flagReg]
  | .ldVMem x => (List.finRange 16).filter (· ≤ x)
  | .cls | .ret | .jp _ | .call _ | .seImm _ _ | .sneImm _ _ | .seReg _ _ | .sneReg _ _ | .ldI _ | .jpV0 _
  | .skp _ | .sknp _ | .ldDtVx _ | .ldStVx _ | .addI _ | .ldF _ | .ldB _ | .ldMemV _ => []

/-- The other parts an instruction may write (the table of 10_state.md R20). -/
def writtenParts : Instr → List Part
  | .cls => [.fb]
  | .drw _ _ _ => [.fb, .fault]
  | .ret => [.stack, .fault]
  | .call _ => [.stack]
  | .ldI _ | .addI _ | .ldF _ => [.i]
  | .rnd _ _ => [.draws]
  | .ldDtVx _ => [.dt]
  | .ldStVx _ => [.st]
  | .skp _ | .sknp _ | .ldVMem _ => [.fault]
  | .ldB _ | .ldMemV _ => [.mem, .fault]
  | .jp _ | .seImm _ _ | .sneImm _ _ | .seReg _ _ | .sneReg _ _ | .jpV0 _ | .ldImm _ _ | .addImm _ _ | .ldReg _ _
  | .or _ _ | .and _ _ | .xor _ _ | .addReg _ _ | .sub _ _ | .shr _ _ | .subn _ _ | .shl _ _ | .ldVxDt _
  | .ldVxK _ => []

/-! Faults. -/

/-- `t` is `s` halted with the cause `f`: only `fault` differs (60_exceptions.md R217). -/
def HaltedWith (f : Fault) (s t : State) : Prop :=
  t = { s with fault := some { cause := f, pc := s.pc, word := fetchedWord s } }

/-- The one fault an executing instruction can raise of its own, where it is due (60_exceptions.md R215). -/
def ownFault : Instr → State → Option Fault
  | .ret, s => if s.stack = [] then some .stackUnderflow else none
  | .drw _ _ n, s => if s.i.toNat + n.val > 4096 then some (.address s.i.toNat n.val .read) else none
  | .ldB _, s => if s.i.toNat ≥ 4094 then some (.address s.i.toNat 3 .write) else none
  | .ldMemV x, s => if s.i.toNat + x.val + 1 > 4096 then some (.address s.i.toNat (x.val + 1) .write) else none
  | .ldVMem x, s => if s.i.toNat + x.val + 1 > 4096 then some (.address s.i.toNat (x.val + 1) .read) else none
  | .skp x, s | .sknp x, s => if (s.getV x).toNat ≥ 16 then some (.keyIndex (s.getV x)) else none
  | .cls, _ | .jp _, _ | .call _, _ | .seImm _ _, _ | .sneImm _ _, _ | .seReg _ _, _ | .ldImm _ _, _
  | .addImm _ _, _ | .ldReg _ _, _ | .or _ _, _ | .and _ _, _ | .xor _ _, _ | .addReg _ _, _ | .sub _ _, _
  | .shr _ _, _ | .subn _ _, _ | .shl _ _, _ | .sneReg _ _, _ | .ldI _, _ | .jpV0 _, _ | .rnd _ _, _
  | .ldVxDt _, _ | .ldVxK _, _ | .ldDtVx _, _ | .ldStVx _, _ | .addI _, _ | .ldF _, _ => none

/-- The fault the next step of a running core raises: fetch first, then decode, then the instruction's own
(60_exceptions.md R211, R215). -/
def dueFault (s : State) : Option Fault :=
  if s.pc.toNat ≥ 4095 then some (.address s.pc.toNat 2 .fetch)
  else
    match decodeWord (wordOfBytes (Memory.read s.mem s.pc.toNat) (Memory.read s.mem (s.pc.toNat + 1))) with
    | .error _ => some .decode
    | .ok i => ownFault i s

/-- The step of `s` fetches the word `w` and decodes it to `i`. -/
def FetchesInstr (s : State) (i : Instr) : Prop :=
  s.fault = none ∧ ∃ w, fetchWord s = .ok w ∧ decodeWord w = .ok i

/-! Where the pc goes. -/

/-- The next pc 30_encoding.md R74 and R75 allow an instruction that does not fault. The four that set `pc` themselves
are left to their own rules. -/
def AdvancesPc : Instr → State → State → Prop
  | .ret, _, _ | .jp _, _, _ | .call _, _, _ | .jpV0 _, _, _ => True
  | .seImm _ _, s, t | .sneImm _ _, s, t | .seReg _ _, s, t | .sneReg _ _, s, t | .skp _, s, t | .sknp _, s, t =>
    t.pc = s.pc + 4#16 ∨ t.pc = s.pc + 2#16
  | .ldVxK _, s, t => if ∀ k : KeyIdx, s.key[k] = false then t.pc = s.pc else t.pc = s.pc + 2#16
  | .cls, s, t | .ldImm _ _, s, t | .addImm _ _, s, t | .ldReg _ _, s, t | .or _ _, s, t | .and _ _, s, t
  | .xor _ _, s, t | .addReg _ _, s, t | .sub _ _, s, t | .shr _ _, s, t | .subn _ _, s, t | .shl _ _, s, t
  | .ldI _, s, t | .rnd _ _, s, t | .drw _ _ _, s, t | .ldVxDt _, s, t | .ldDtVx _, s, t | .ldStVx _, s, t
  | .addI _, s, t | .ldF _, s, t | .ldB _, s, t | .ldMemV _, s, t | .ldVMem _, s, t => t.pc = s.pc + 2#16

/-! Sprites. -/

/-- A 1 bit of the `n`-byte sprite at memory address `i`, drawn at column `x` and row `y`, falls on the cell
(42_display.md R152): bit `7 - b` of byte `r` falls on row `(y + r) mod 32`, column `(x + b) mod 64`. -/
def SpriteCovers (m : Memory) (i x y n : Nat) (row : Fin 32) (col : Fin 64) : Prop :=
  ∃ r b, r < n ∧ b < 8 ∧ (y + r) % 32 = row.val ∧ (x + b) % 64 = col.val ∧
    (Memory.read m (i + r)).toNat / 2 ^ (7 - b) % 2 = 1

/-! The invariant. -/

/-- What every state a run reaches has: memory in its one form, a pc and return addresses small enough that no
16-bit sum wraps (10_state.md R24), and a fault record that names the pc at which the core halted (R217). -/
def State.Inv (s : State) : Prop :=
  Memory.wf s.mem ∧ s.pc.toNat ≤ 0x10FE ∧ (∀ a ∈ s.stack, a.toNat ≤ 0x1000) ∧
    ∀ r, s.fault = some r → r.pc = s.pc

end Sys2Proof.Machine
end

