-- ==== Sys2Proof/Certificates/Slice0/Obligations.lean ====
section
/-! DEFINITION. The statements for the provers, from the numbered rules of spec/. Each docstring names its rules.
An instruction's statement says the word it is decoded from, that `exec` answers a next state, what that state holds,
and what stays. The timer tick that follows every instruction (43_keys_timers.md R173) is in the statements about
`step`. -/

open Sys2Proof Sys2Proof.Machine

/-! Encoding and decoding. -/

/-- 30_encoding.md R72: sample words written out from the formats of the opcode table, one or more a family, and words
it makes illegal. -/
def Obligations.SampleWordsDecode : Prop :=
  decodeWord 0x00E0#16 = .ok .cls ∧ decodeWord 0x00EE#16 = .ok .ret ∧
  decodeWord 0x1ABC#16 = .ok (.jp 0xABC#12) ∧ decodeWord 0x2300#16 = .ok (.call 0x300#12) ∧
  decodeWord 0x3142#16 = .ok (.seImm 1 0x42#8) ∧ decodeWord 0x5120#16 = .ok (.seReg 1 2) ∧
  decodeWord 0x6A42#16 = .ok (.ldImm 10 0x42#8) ∧ decodeWord 0x8125#16 = .ok (.sub 1 2) ∧
  decodeWord 0x8FFE#16 = .ok (.shl 15 15) ∧ decodeWord 0xC30F#16 = .ok (.rnd 3 0x0F#8) ∧
  decodeWord 0xD015#16 = .ok (.drw 0 1 5) ∧ decodeWord 0xE2A1#16 = .ok (.sknp 2) ∧
  decodeWord 0xF018#16 = .ok (.ldStVx 0) ∧ decodeWord 0xF265#16 = .ok (.ldVMem 2) ∧
  decodeWord 0x0123#16 = .error (.zeroFamily 0x0123#16) ∧ decodeWord 0x8128#16 = .error (.eightFamily 0x8128#16)

/-- 30_encoding.md R70 to R72: the word of every well-formed instruction, with every operand at every value, decodes to
that instruction. -/
def Obligations.DecodeOfEncodeIsInstr : Prop :=
  ∀ i : Instr, i.wellFormed = true →
    decodeWord (encode i) = .ok i ∧ decodeBytes (encodeBytes i) = .ok (i, [])

/-- 30_encoding.md R70 to R72: a word that decodes is the word of its instruction, which is well-formed, so a word has
one meaning and an instruction one word. -/
def Obligations.EncodeOfDecodeIsWord : Prop :=
  ∀ (w : Word) (i : Instr), decodeWord w = .ok i → encode i = w ∧ i.wellFormed = true

/-- 30_encoding.md R77 (its table, not its counts): the illegal words are exactly those listed. -/
def Obligations.IllegalWordsAreExactlyListed : Prop :=
  ∀ w : Word, (∃ e, decodeWord w = .error e) ↔
    (w.toNat / 4096 = 0x0 ∧ w.toNat ≠ 0x00E0 ∧ w.toNat ≠ 0x00EE) ∨
    (w.toNat / 4096 = 0x5 ∧ w.toNat % 16 ≠ 0) ∨
    (w.toNat / 4096 = 0x8 ∧ w.toNat % 16 ∈ [0x8, 0x9, 0xA, 0xB, 0xC, 0xD, 0xF]) ∨
    (w.toNat / 4096 = 0x9 ∧ w.toNat % 16 ≠ 0) ∨
    (w.toNat / 4096 = 0xE ∧ w.toNat % 256 ∉ [0x9E, 0xA1]) ∨
    (w.toNat / 4096 = 0xF ∧ w.toNat % 256 ∉ [0x07, 0x0A, 0x15, 0x18, 0x1E, 0x29, 0x33, 0x55, 0x65])

/-! The step. -/

/-- 30_encoding.md R73: a running core that fetches a word and decodes it to `i` steps as `exec i` does, and then ticks
both timers unless `i` faulted. -/
def Obligations.StepRunsDecodedInstruction : Prop :=
  ∀ (s u : State) (i : Instr), FetchesInstr s i → exec i s = .next u →
    step s = .next (if u.fault = none then { u with dt := countDown u.dt, st := countDown u.st } else u)

/-- 20_memory.md R55 and R57: the fetch reads the byte at `pc` as bits 15..8 and the next one as bits 7..0, at any `pc`,
odd or even, whose two bytes lie in memory. -/
def Obligations.FetchIsBigEndian : Prop :=
  ∀ s : State, s.pc.toNat + 2 ≤ 4096 →
    ∃ w, fetchWord s = .ok w ∧
      w.toNat = (Memory.read s.mem s.pc.toNat).toNat * 256 + (Memory.read s.mem (s.pc.toNat + 1)).toNat

/-- 60_exceptions.md R211, R217: a step with pc 4095 or more records an `AddressFault` with the pc, two bytes, the fetch
direction and no word, and changes nothing else. -/
def Obligations.FetchFaultIsRecorded : Prop :=
  ∀ s : State, s.fault = none → s.pc.toNat ≥ 4095 →
    step s = .next { s with fault := some { cause := .address s.pc.toNat 2 .fetch, pc := s.pc, word := none } }

/-- 60_exceptions.md R212, R217: a step that fetches an illegal word records a `DecodeFault` with the word and the pc it
was fetched from, and changes nothing else. -/
def Obligations.DecodeFaultIsRecorded : Prop :=
  ∀ (s : State) (w : Word) (e : DecodeError), s.fault = none → fetchWord s = .ok w → decodeWord w = .error e →
    step s = .next { s with fault := some { cause := .decode, pc := s.pc, word := some w } }

/-- 60_exceptions.md R218: no number of steps changes a halted core, no other host operation clears its fault, and the
host's reset does. -/
def Obligations.HaltedCoreIsAbsorbing : Prop :=
  ∀ s : State, s.fault ≠ none →
    (∀ k, Sys2Proof.core.run k s = .next s) ∧ (∀ k b, (s.setKey k b).fault = s.fault) ∧ s.hostReset.fault = none

/-- 60_exceptions.md R217: a step of a running core that ends with a fault leaves the start-of-step state with only
`fault` changed; the record holds the pc, and the word if the fetch succeeded. -/
def Obligations.FaultingStepChangesOnlyFault : Prop :=
  ∀ (s t : State) (r : FaultRecord), s.fault = none → step s = .next t → t.fault = some r →
    t = { s with fault := some r } ∧ r.pc = s.pc ∧ r.word = fetchedWord s ∧
    (∀ w, fetchWord s = .ok w → r.word = some w) ∧ (∀ f, fetchWord s = .error f → r.word = none)

/-- 60_exceptions.md R210 to R215: a step of a running core raises exactly the fault that is due, the fetch's first, then
the decode's, then the instruction's own; the codes are 1 to 4. -/
def Obligations.StepRaisesExactlyTheDueFault : Prop :=
  (∀ s t : State, s.fault = none → step s = .next t → t.fault.map FaultRecord.cause = dueFault s) ∧
  (∀ a n d, (Fault.address a n d).code = 1) ∧ Fault.decode.code = 2 ∧ Fault.stackUnderflow.code = 3 ∧
  (∀ k, (Fault.keyIndex k).code = 4)

/-- Every instruction and every step answers a next state: a fault is a next state with a record (the model's form of
60_exceptions.md section 2, log entry 1), so no data and no word stops it outside the state. -/
def Obligations.EveryStepAnswersNext : Prop :=
  (∀ (i : Instr) (s : State), ∃ t, exec i s = .next t) ∧ ∀ s : State, ∃ t, step s = .next t

/-- 30_encoding.md, section 3, which the spec marks "derived: from rule R73 and 20_memory.md rule R51": in a state whose fetch succeeds, the advance by 2 or 4 is exact and at most 4098, and an advance
past 4094 leaves a pc whose fetch raises `AddressFault`. -/
def Obligations.PcAdvanceIsExact : Prop :=
  (∀ s : State, s.pc.toNat + 2 ≤ 4096 →
    (s.advance).pc.toNat = s.pc.toNat + 2 ∧
    (∀ c, (s.skipIf c).pc.toNat = s.pc.toNat + if c then 4 else 2) ∧
    ∀ c, (s.skipIf c).pc.toNat ≤ 4098) ∧
  ∀ s : State, s.pc.toNat > 4094 → fetchWord s = .error (.address s.pc.toNat 2 .fetch)

/-- 30_encoding.md R74: every instruction that does not fault, other than the four that set `pc` themselves and the
skips, ends with `pc + 2`, but for `Fx0A` while no key is pressed; a skip ends with `pc + 2` or `pc + 4`. -/
def Obligations.EveryInstructionAdvancesPc : Prop :=
  ∀ (i : Instr) (s t : State), ownFault i s = none → exec i s = .next t → AdvancesPc i s t

/-- 10_state.md R20 (the "written by" column): an instruction changes no register, no byte of memory and no other part of
the state but those the table gives it; in particular none changes KEY. -/
def Obligations.OnlyListedPartsAreWritten : Prop :=
  ∀ (i : Instr) (s t : State), exec i s = .next t → Frame (writtenRegs i) (writtenParts i) s t

/-- 10_state.md R33: no step changes the keyboard state; the host's per-key setter changes one key. -/
def Obligations.KeysAreMutatedOnlyByTheHost : Prop :=
  (∀ s t : State, step s = .next t → t.key = s.key) ∧
  ∀ (s : State) (k j : KeyIdx) (b : Bool), (s.setKey k b).key[j] = if k = j then b else s.key[j]

/-! The invariant. -/

/-- The reset state meets the invariant. -/
def Obligations.InvHoldsAtReset : Prop := State.reset.Inv

/-- Every step keeps the invariant: memory in its one form, pc at most 0x10FE and return addresses at most 0x1000
(10_state.md R24: no 16-bit wrap can occur), a fault record that names the pc. -/
def Obligations.StepKeepsInv : Prop :=
  ∀ s t : State, s.Inv → step s = .next t → t.Inv

/-- The host's operations keep the invariant; reset and ROM load give it from any state (60_exceptions.md R227). -/
def Obligations.HostOperationsKeepInv : Prop :=
  (∀ s : State, s.hostReset.Inv) ∧ (∀ (s : State) (bytes : List Byte), (s.loadRom bytes).Inv) ∧
  ∀ (s : State) (k : KeyIdx) (b : Bool), s.Inv → (s.setKey k b).Inv

/-! Timers. -/

/-- 43_keys_timers.md R173: a step whose instruction does not fault ends with both timers one lower than the instruction
left them, or 0; a step whose instruction faults, and a halted core's step, tick nothing. -/
def Obligations.TickEndsEveryExecutedStep : Prop :=
  (∀ (s u : State) (i : Instr), FetchesInstr s i → exec i s = .next u →
    ∃ t, step s = .next t ∧
      (u.fault = none → t = { u with dt := t.dt, st := t.st } ∧
        t.dt.toNat = u.dt.toNat - 1 ∧ t.st.toNat = u.st.toNat - 1) ∧
      (u.fault ≠ none → t.dt = s.dt ∧ t.st = s.st)) ∧
  ∀ s t : State, s.fault ≠ none → step s = .next t → t.dt = s.dt ∧ t.st = s.st

/-- 43_keys_timers.md section 4, which the spec marks "all derived: from rules R173, R176 and R178": a step that runs any instruction but a timer's own setter leaves
that timer one lower, or at 0. -/
def Obligations.TimersFallUnlessSet : Prop :=
  ∀ (s t : State) (i : Instr), FetchesInstr s i → step s = .next t → t.fault = none →
    ((∀ x, i ≠ .ldDtVx x) → t.dt.toNat = s.dt.toNat - 1) ∧
    ((∀ x, i ≠ .ldStVx x) → t.st.toNat = s.st.toNat - 1)

/-- The spin state of 60_exceptions.md section 5 (b) with the derived properties of 43_keys_timers.md section 4: in a spin
state (`1nnn` at address nnn), any number of steps changes
nothing but the timers, which count down and stay at 0. -/
def Obligations.SpinStateOnlyTicks : Prop :=
  ∀ (s : State) (nnn : Addr12), FetchesInstr s (.jp nnn) → s.pc.toNat = nnn.toNat →
    ∀ k, ∃ t : State, Sys2Proof.core.run k s = .next t ∧ t = { s with dt := t.dt, st := t.st } ∧
      t.dt.toNat = s.dt.toNat - k ∧ t.st.toNat = s.st.toNat - k

/-! Reset and the host. -/

/-- 70_reset_and_hazards.md R240, R241: every value the reset leaves, from any state, halted or not; the random source is
not touched (its draw count is the model's, log entry 3). Glyph g of `FONT` stands at 5 * g (the font bytes themselves are
the parameter `font`, log entry 4), and the rest of memory is 0 (the spec's decision D10, log entry 8). -/
def Obligations.ResetLeavesListedValues : Prop :=
  (∀ s : State, s.hostReset = { State.reset with draws := s.draws }) ∧
  (∀ r, State.reset.getV r = 0#8) ∧ State.reset.i = 0#16 ∧ State.reset.pc = 0x200#16 ∧ State.reset.stack = [] ∧
  State.reset.dt = 0#8 ∧ State.reset.st = 0#8 ∧
  (∀ (r : Fin 32) (c : Fin 64), State.reset.fb[r][c] = false) ∧ (∀ k : KeyIdx, State.reset.key[k] = false) ∧
  State.reset.fault = none ∧ font.length = 80 ∧
  (∀ g j, g < 16 → j < 5 → font[5 * g + j]? = some (Memory.read State.reset.mem (5 * g + j))) ∧
  ∀ a, 0x50 ≤ a → a < 4096 → Memory.read State.reset.mem a = 0#8

/-- 00_scope.md R6, 70_reset_and_hazards.md R242, 92_eei_decisions.md D15 (`FONT` is a parameter): with any 80 glyph bytes
as `FONT`, the host's reset leaves glyph g at 5 * g, 0 in the rest of memory, and every other field as it does with the
default; a ROM load keeps those glyphs; and `State.reset` is the reset state of the default. That the invariant holds is
the model's own clause. -/
def Obligations.ResetTakesAnyFont : Prop :=
  (∀ (glyphs : List Byte) (s : State), glyphs.length = 80 →
    (∀ g j, g < 16 → j < 5 → glyphs[5 * g + j]? = some (Memory.read (s.hostResetWith glyphs).mem (5 * g + j))) ∧
    (∀ a, 0x50 ≤ a → a < 4096 → Memory.read (s.hostResetWith glyphs).mem a = 0#8) ∧
    s.hostResetWith glyphs = { s.hostReset with mem := (s.hostResetWith glyphs).mem } ∧
    (∀ (bytes : List Byte) (a : Nat), a < 0x200 →
      Memory.read (s.loadRomWith glyphs bytes).mem a = Memory.read (s.hostResetWith glyphs).mem a) ∧
    (s.hostResetWith glyphs).Inv ∧ ∀ bytes, (s.loadRomWith glyphs bytes).Inv) ∧
  State.resetWith font = State.reset

/-- 70_reset_and_hazards.md R243: a ROM of at most 3584 bytes is in memory from 0x200 on, unmodified, in the reset state
otherwise; a longer one leaves the reset state with the `AddressFault` recorded and nothing written. -/
def Obligations.RomLoadResetsAndWrites : Prop :=
  ∀ (s : State) (bytes : List Byte),
    (bytes.length ≤ 3584 →
      (∀ k, (h : k < bytes.length) → Memory.read (s.loadRom bytes).mem (0x200 + k) = bytes[k]) ∧
      SameOutside 0x200 bytes.length s.hostReset (s.loadRom bytes) ∧
      s.loadRom bytes = { s.hostReset with mem := (s.loadRom bytes).mem }) ∧
    (bytes.length > 3584 →
      s.loadRom bytes = { s.hostReset with
        fault := some { cause := .address 0x200 bytes.length .write, pc := 0x200#16, word := none } })

/-- 42_display.md R150, R155: the host's view is 2048 bytes, each 0 or 1, and cell (r, c) is the byte at index
r * 64 + c. -/
def Obligations.SnapshotIsRowMajor : Prop :=
  ∀ s : State, s.getSnapshot.length = 2048 ∧ (∀ b ∈ s.getSnapshot, b = 0#8 ∨ b = 1#8) ∧
    ∀ (r : Fin 32) (c : Fin 64), s.getSnapshot[r.val * 64 + c.val]? = some (if s.fb[r][c] then 1#8 else 0#8)

/-- A placed word is the one the next step fetches, in any state whose memory has its one form (the model's own
operation, log entry 12; 20_memory.md R55, 30_encoding.md R73). -/
def Obligations.PlacedWordIsFetchedNext : Prop :=
  ∀ (s : State) (w : Nat), Memory.wf s.mem → w < 65536 →
    (s.withFetchWord 16 w).fault = none ∧ fetchWord (s.withFetchWord 16 w) = .ok (BitVec.ofNat 16 w) ∧
    Memory.wf (s.withFetchWord 16 w).mem

/-! Memory. -/

/-- 20_memory.md R51, R54: a read of n bytes at a answers `mem[a]` to `mem[a+n-1]` in order where a + n is at most 4096, and
raises `AddressFault` where it is more, with a + n never wrapped. -/
def Obligations.MemReadAnswersRangeOrFaults : Prop :=
  ∀ (m : Memory) (d : Direction) (a n : Nat),
    (a + n ≤ 4096 → ∃ bs, memRead m d a n = .ok bs ∧ bs.length = n ∧
      ∀ k, k < n → bs[k]? = some (Memory.read m (a + k))) ∧
    (a + n > 4096 → memRead m d a n = .error (.address a n d))

/-- 20_memory.md R52, R53: a write of a run of bytes puts byte k at address a + k, leaves every other byte and keeps the form
of memory, where the range lies in memory; else it raises `AddressFault` before any byte is written. -/
def Obligations.MemWriteIsReadBack : Prop :=
  ∀ (m : Memory) (a : Nat) (bs : List Byte), Memory.wf m →
    (a + bs.length ≤ 4096 → ∃ m', memWrite m a bs = .ok m' ∧ Memory.wf m' ∧
      (∀ d, memRead m' d a bs.length = .ok bs) ∧
      ∀ b, b < a ∨ a + bs.length ≤ b → Memory.read m' b = Memory.read m b) ∧
    (a + bs.length > 4096 → memWrite m a bs = .error (.address a bs.length .write))

/-- 20_memory.md, section 5, which the spec marks "derived: from rule R62 and 30_encoding.md rule R73": code written by
`Fx55` just past the instruction is executed as written at the next fetch. For every x and I whose stored range covers
pc + 2 and pc + 3, with V[j] stored at the first of them and V[k] at the second. -/
def Obligations.StoredCodeIsFetched : Prop :=
  ∀ (s : State) (x j k : Reg), Memory.wf s.mem → dataAddr s + (x.val + 1) ≤ 4096 →
    s.pc.toNat + 2 = dataAddr s + j.val → k.val = j.val + 1 → k ≤ x →
    ∃ t, exec (.ldMemV x) s = .next t ∧ t.pc.toNat = s.pc.toNat + 2 ∧
      fetchWord t = .ok (wordOfBytes (s.getV j) (s.getV k))

/-! Control flow. -/

/-- 42_display.md R156, R151: CLS. -/
def Obligations.ClsClearsEveryCell : Prop :=
  ∀ s : State, decodeWord 0x00E0#16 = .ok .cls ∧
    ∃ t, exec .cls s = .next t ∧ (∀ (r : Fin 32) (c : Fin 64), t.fb[r][c] = false) ∧ t.pc = s.pc + 2#16 ∧
      Frame [] [.fb] s t

/-- 40_control_flow.md R100, 60_exceptions.md R213: RET pops the top into pc; with an empty stack it raises
`StackUnderflow`. -/
def Obligations.RetPopsTopOrUnderflows : Prop :=
  ∀ s : State, decodeWord 0x00EE#16 = .ok .ret ∧
    (∀ (below : List Word) (top : Word), s.stack = below ++ [top] →
      ∃ t, exec .ret s = .next t ∧ t.pc = top ∧ t.stack = below ∧ Frame [] [.stack] s t) ∧
    (s.stack = [] → ∃ t, exec .ret s = .next t ∧ HaltedWith .stackUnderflow s t)

/-- 40_control_flow.md R101: JP nnn. -/
def Obligations.JpSetsPc : Prop :=
  ∀ (s : State) (nnn : Addr12),
    decodeWord (BitVec.ofNat 16 (0x1000 + nnn.toNat)) = .ok (.jp nnn) ∧
    ∃ t, exec (.jp nnn) s = .next t ∧ t.pc.toNat = nnn.toNat ∧ Frame [] [] s t

/-- 40_control_flow.md R102: CALL nnn pushes pc + 2, at any depth, and jumps. -/
def Obligations.CallPushesReturnAddress : Prop :=
  ∀ (s : State) (nnn : Addr12),
    decodeWord (BitVec.ofNat 16 (0x2000 + nnn.toNat)) = .ok (.call nnn) ∧
    ∃ t, exec (.call nnn) s = .next t ∧ t.pc.toNat = nnn.toNat ∧ t.stack = s.stack ++ [s.pc + 2#16] ∧
      Frame [] [.stack] s t

/-- 40_control_flow.md R103, R104: SE and SNE with an immediate. -/
def Obligations.ImmediateSkips : Prop :=
  ∀ (s : State) (x : Reg) (kk : Byte),
    decodeWord (BitVec.ofNat 16 (0x3000 + x.val * 256 + kk.toNat)) = .ok (.seImm x kk) ∧
    decodeWord (BitVec.ofNat 16 (0x4000 + x.val * 256 + kk.toNat)) = .ok (.sneImm x kk) ∧
    (∃ t, exec (.seImm x kk) s = .next t ∧
      (t.pc = if s.getV x = kk then s.pc + 4#16 else s.pc + 2#16) ∧ Frame [] [] s t) ∧
    (∃ t, exec (.sneImm x kk) s = .next t ∧
      (t.pc = if s.getV x ≠ kk then s.pc + 4#16 else s.pc + 2#16) ∧ Frame [] [] s t)

/-- 40_control_flow.md R105, R106: SE and SNE with a register. -/
def Obligations.RegisterSkips : Prop :=
  ∀ (s : State) (x y : Reg),
    decodeWord (BitVec.ofNat 16 (0x5000 + x.val * 256 + y.val * 16 + 0x0)) = .ok (.seReg x y) ∧
    decodeWord (BitVec.ofNat 16 (0x9000 + x.val * 256 + y.val * 16 + 0x0)) = .ok (.sneReg x y) ∧
    (∃ t, exec (.seReg x y) s = .next t ∧
      (t.pc = if s.getV x = s.getV y then s.pc + 4#16 else s.pc + 2#16) ∧ Frame [] [] s t) ∧
    (∃ t, exec (.sneReg x y) s = .next t ∧
      (t.pc = if s.getV x ≠ s.getV y then s.pc + 4#16 else s.pc + 2#16) ∧ Frame [] [] s t)

/-- 40_control_flow.md R107: JP V0, nnn: the sum is neither wrapped nor masked. -/
def Obligations.JpV0AddsExactly : Prop :=
  ∀ (s : State) (nnn : Addr12),
    decodeWord (BitVec.ofNat 16 (0xB000 + nnn.toNat)) = .ok (.jpV0 nnn) ∧
    ∃ t, exec (.jpV0 nnn) s = .next t ∧ t.pc.toNat = nnn.toNat + (s.getV 0).toNat ∧ t.pc.toNat ≤ 0x10FE ∧
      Frame [] [] s t

/-! Register arithmetic and logic. -/

/-- 41_alu.md R122: LD Vx, kk. -/
def Obligations.LdImmLoadsByte : Prop :=
  ∀ (s : State) (x : Reg) (kk : Byte),
    decodeWord (BitVec.ofNat 16 (0x6000 + x.val * 256 + kk.toNat)) = .ok (.ldImm x kk) ∧
    ∃ t, exec (.ldImm x kk) s = .next t ∧ t.getV x = kk ∧ t.pc = s.pc + 2#16 ∧ Frame [x] [] s t

/-- 41_alu.md R123: ADD Vx, kk: modulo 256, no flag. -/
def Obligations.AddImmWrapsWithoutFlag : Prop :=
  ∀ (s : State) (x : Reg) (kk : Byte),
    decodeWord (BitVec.ofNat 16 (0x7000 + x.val * 256 + kk.toNat)) = .ok (.addImm x kk) ∧
    ∃ t, exec (.addImm x kk) s = .next t ∧ (t.getV x).toNat = ((s.getV x).toNat + kk.toNat) % 256 ∧
      t.pc = s.pc + 2#16 ∧ Frame [x] [] s t

/-- 41_alu.md R124: LD Vx, Vy. -/
def Obligations.LdRegCopies : Prop :=
  ∀ (s : State) (x y : Reg),
    decodeWord (BitVec.ofNat 16 (0x8000 + x.val * 256 + y.val * 16 + 0x0)) = .ok (.ldReg x y) ∧
    ∃ t, exec (.ldReg x y) s = .next t ∧ t.getV x = s.getV y ∧ t.pc = s.pc + 2#16 ∧ Frame [x] [] s t

/-- 41_alu.md R125 to R127: OR, AND and XOR, bit by bit; VF is unchanged unless it is the destination. -/
def Obligations.LogicWorksBitwise : Prop :=
  ∀ (s : State) (x y : Reg),
    decodeWord (BitVec.ofNat 16 (0x8000 + x.val * 256 + y.val * 16 + 0x1)) = .ok (.or x y) ∧
    decodeWord (BitVec.ofNat 16 (0x8000 + x.val * 256 + y.val * 16 + 0x2)) = .ok (.and x y) ∧
    decodeWord (BitVec.ofNat 16 (0x8000 + x.val * 256 + y.val * 16 + 0x3)) = .ok (.xor x y) ∧
    (∃ t, exec (.or x y) s = .next t ∧ t.pc = s.pc + 2#16 ∧ Frame [x] [] s t ∧
      ∀ b, (t.getV x).getLsbD b = ((s.getV x).getLsbD b || (s.getV y).getLsbD b)) ∧
    (∃ t, exec (.and x y) s = .next t ∧ t.pc = s.pc + 2#16 ∧ Frame [x] [] s t ∧
      ∀ b, (t.getV x).getLsbD b = ((s.getV x).getLsbD b && (s.getV y).getLsbD b)) ∧
    (∃ t, exec (.xor x y) s = .next t ∧ t.pc = s.pc + 2#16 ∧ Frame [x] [] s t ∧
      ∀ b, (t.getV x).getLsbD b = ((s.getV x).getLsbD b != (s.getV y).getLsbD b))

/-- 41_alu.md R128: ADD Vx, Vy; the carry is written to VF last (D2, log entry 5). -/
def Obligations.AddRegSetsCarryLast : Prop :=
  ∀ (s : State) (x y : Reg),
    decodeWord (BitVec.ofNat 16 (0x8000 + x.val * 256 + y.val * 16 + 0x4)) = .ok (.addReg x y) ∧
    ∃ t, exec (.addReg x y) s = .next t ∧
      (x ≠ flagReg → (t.getV x).toNat = ((s.getV x).toNat + (s.getV y).toNat) % 256) ∧
      (t.getV flagReg).toNat = (if (s.getV x).toNat + (s.getV y).toNat > 255 then 1 else 0) ∧
      t.pc = s.pc + 2#16 ∧ Frame [x, flagReg] [] s t

/-- 41_alu.md R129: SUB wraps in every case (the spec's decision D3), with a strict no-borrow flag written to VF last
(D2, log entry 5). -/
def Obligations.SubWrapsWithStrictFlag : Prop :=
  ∀ (s : State) (x y : Reg),
    decodeWord (BitVec.ofNat 16 (0x8000 + x.val * 256 + y.val * 16 + 0x5)) = .ok (.sub x y) ∧
    ∃ t, exec (.sub x y) s = .next t ∧
      (x ≠ flagReg → ((t.getV x).toNat : Int) = (((s.getV x).toNat : Int) - (s.getV y).toNat) % 256) ∧
      (t.getV flagReg).toNat = (if (s.getV x).toNat > (s.getV y).toNat then 1 else 0) ∧
      t.pc = s.pc + 2#16 ∧ Frame [x, flagReg] [] s t

/-- 41_alu.md section 3, SUBN, whose result and flag the spec marks as its own inference ("derived: from rule R129 and the
source's 'reverse of SUB'"): V[y] - V[x], with a strict flag written to VF last (log entry 5). -/
def Obligations.SubnReversesSub : Prop :=
  ∀ (s : State) (x y : Reg),
    decodeWord (BitVec.ofNat 16 (0x8000 + x.val * 256 + y.val * 16 + 0x7)) = .ok (.subn x y) ∧
    ∃ t, exec (.subn x y) s = .next t ∧
      (x ≠ flagReg → ((t.getV x).toNat : Int) = (((s.getV y).toNat : Int) - (s.getV x).toNat) % 256) ∧
      (t.getV flagReg).toNat = (if (s.getV y).toNat > (s.getV x).toNat then 1 else 0) ∧
      t.pc = s.pc + 2#16 ∧ Frame [x, flagReg] [] s t

/-- 41_alu.md R130, R132: SHR and SHL shift V[x] by one, whatever `y` is, with the bit shifted out written to VF last
(D2, log entry 5). -/
def Obligations.ShiftsMoveVxByOne : Prop :=
  ∀ (s : State) (x y : Reg),
    decodeWord (BitVec.ofNat 16 (0x8000 + x.val * 256 + y.val * 16 + 0x6)) = .ok (.shr x y) ∧
    decodeWord (BitVec.ofNat 16 (0x8000 + x.val * 256 + y.val * 16 + 0xE)) = .ok (.shl x y) ∧
    (∃ t, exec (.shr x y) s = .next t ∧
      (x ≠ flagReg → (t.getV x).toNat = (s.getV x).toNat / 2) ∧
      (t.getV flagReg).toNat = (s.getV x).toNat % 2 ∧ t.pc = s.pc + 2#16 ∧ Frame [x, flagReg] [] s t) ∧
    (∃ t, exec (.shl x y) s = .next t ∧
      (x ≠ flagReg → (t.getV x).toNat = (s.getV x).toNat * 2 % 256) ∧
      (t.getV flagReg).toNat = (s.getV x).toNat / 128 ∧ t.pc = s.pc + 2#16 ∧ Frame [x, flagReg] [] s t)

/-- 41_alu.md section 5, which the spec marks "all derived: from rules R120 to R133": the laws of the flag-setting
instructions where x is not F. -/
def Obligations.CarryAndShiftLaws : Prop :=
  ∀ (s t : State) (x y : Reg), x ≠ flagReg →
    (exec (.addReg x y) s = .next t →
      (t.getV x).toNat + 256 * (t.getV flagReg).toNat = (s.getV x).toNat + (s.getV y).toNat) ∧
    (exec (.sub x y) s = .next t →
      ((s.getV x).toNat ≥ (s.getV y).toNat →
        (t.getV x).toNat = (s.getV x).toNat - (s.getV y).toNat ∧
        (t.getV flagReg = 1#8 ↔ (t.getV x).toNat ≠ 0)) ∧
      ((s.getV x).toNat < (s.getV y).toNat →
        (t.getV x).toNat = (s.getV x).toNat + 256 - (s.getV y).toNat ∧ t.getV flagReg = 0#8)) ∧
    (exec (.shr x y) s = .next t →
      (s.getV x).toNat = 2 * (t.getV x).toNat + (t.getV flagReg).toNat) ∧
    (exec (.shl x y) s = .next t →
      2 * (s.getV x).toNat = (t.getV x).toNat + 256 * (t.getV flagReg).toNat)

/-- 41_alu.md R133: RND leaves the draw AND kk, so bits outside kk are 0, and takes one draw. The draw is a free value
(the model's form of it: log entry 2). -/
def Obligations.RndMasksOneDraw : Prop :=
  ∀ (s : State) (x : Reg) (kk : Byte),
    decodeWord (BitVec.ofNat 16 (0xC000 + x.val * 256 + kk.toNat)) = .ok (.rnd x kk) ∧
    ∃ t, exec (.rnd x kk) s = .next t ∧ t.getV x = (Config.randomByte s.draws &&& kk) ∧
      (∀ b, kk.getLsbD b = false → (t.getV x).getLsbD b = false) ∧
      t.draws = s.draws + 1 ∧ t.pc = s.pc + 2#16 ∧ Frame [x] [.draws] s t

/-! Display. -/

/-- 42_display.md R152, R153, R157: DRW toggles exactly the cells a 1 bit of the sprite falls on, with rows and columns
wrapping, and VF is 1 iff one of them was 1. -/
def Obligations.DrwTogglesCoveredCells : Prop :=
  ∀ (s : State) (x y : Reg) (n : Count),
    decodeWord (BitVec.ofNat 16 (0xD000 + x.val * 256 + y.val * 16 + n.val)) = .ok (.drw x y n) ∧
    (s.i.toNat + n.val ≤ 4096 →
      ∃ t, exec (.drw x y n) s = .next t ∧
        (∀ (r : Fin 32) (c : Fin 64),
          (SpriteCovers s.mem s.i.toNat (s.getV x).toNat (s.getV y).toNat n.val r c → t.fb[r][c] = !s.fb[r][c]) ∧
          (¬ SpriteCovers s.mem s.i.toNat (s.getV x).toNat (s.getV y).toNat n.val r c → t.fb[r][c] = s.fb[r][c])) ∧
        (t.getV flagReg = 1#8 ↔ ∃ (r : Fin 32) (c : Fin 64),
          SpriteCovers s.mem s.i.toNat (s.getV x).toNat (s.getV y).toNat n.val r c ∧ s.fb[r][c] = true) ∧
        (t.getV flagReg = 0#8 ∨ t.getV flagReg = 1#8) ∧
        t.pc = s.pc + 2#16 ∧ Frame [flagReg] [.fb] s t) ∧
    (s.i.toNat + n.val > 4096 →
      ∃ t, exec (.drw x y n) s = .next t ∧ HaltedWith (.address s.i.toNat n.val .read) s t)

/-- 42_display.md section 3, which the spec marks "all derived: from rules R152 and R153": the same sprite drawn twice at the same place restores every cell; on a blank display the first
draw collides with nothing, and the second collides iff the sprite has a set bit. -/
def Obligations.DrawingTwiceRestores : Prop :=
  ∀ (fb : Framebuffer) (x y : Nat) (bytes : List Byte), bytes.length ≤ 15 →
    (drawSprite (drawSprite fb x y bytes).1 x y bytes).1 = fb ∧
    (drawSprite blankFb x y bytes).2 = false ∧
    ((drawSprite (drawSprite blankFb x y bytes).1 x y bytes).2 = true ↔ ∃ b ∈ bytes, b ≠ 0#8)

/-! Keys and timers. -/

/-- 43_keys_timers.md R174, R175, 60_exceptions.md R214: SKP and SKNP test the key V[x] names, and raise `KeyIndexFault`
for a value of 16 or more. -/
def Obligations.KeySkipsTestTheNamedKey : Prop :=
  ∀ (s : State) (x : Reg),
    decodeWord (BitVec.ofNat 16 (0xE000 + x.val * 256 + 0x9E)) = .ok (.skp x) ∧
    decodeWord (BitVec.ofNat 16 (0xE000 + x.val * 256 + 0xA1)) = .ok (.sknp x) ∧
    (∀ k : KeyIdx, (s.getV x).toNat = k.val →
      (∃ t, exec (.skp x) s = .next t ∧
        (t.pc = if s.key[k] = true then s.pc + 4#16 else s.pc + 2#16) ∧ Frame [] [] s t) ∧
      ∃ t, exec (.sknp x) s = .next t ∧
        (t.pc = if s.key[k] = false then s.pc + 4#16 else s.pc + 2#16) ∧ Frame [] [] s t) ∧
    ((s.getV x).toNat ≥ 16 →
      (∃ t, exec (.skp x) s = .next t ∧ HaltedWith (.keyIndex (s.getV x)) s t) ∧
      ∃ t, exec (.sknp x) s = .next t ∧ HaltedWith (.keyIndex (s.getV x)) s t)

/-- 43_keys_timers.md R176: LD Vx, DT reads DT as it is before the step's tick. -/
def Obligations.LdVxDtReadsBeforeTick : Prop :=
  ∀ (s : State) (x : Reg),
    decodeWord (BitVec.ofNat 16 (0xF000 + x.val * 256 + 0x07)) = .ok (.ldVxDt x) ∧
    (∃ t, exec (.ldVxDt x) s = .next t ∧ t.getV x = s.dt ∧ t.pc = s.pc + 2#16 ∧ Frame [x] [] s t) ∧
    (FetchesInstr s (.ldVxDt x) → ∃ t, step s = .next t ∧ t.getV x = s.dt ∧ t.dt.toNat = s.dt.toNat - 1)

/-- 43_keys_timers.md R177, R172: LD Vx, K takes the lowest pressed key, and with none pressed leaves the pc for the same
instruction to run again; the tick follows in both cases. -/
def Obligations.LdVxKTakesLowestOrWaits : Prop :=
  ∀ (s : State) (x : Reg),
    decodeWord (BitVec.ofNat 16 (0xF000 + x.val * 256 + 0x0A)) = .ok (.ldVxK x) ∧
    (∀ k : KeyIdx, s.key[k] = true → (∀ j : KeyIdx, j < k → s.key[j] = false) →
      ∃ t, exec (.ldVxK x) s = .next t ∧ (t.getV x).toNat = k.val ∧ t.pc = s.pc + 2#16 ∧ Frame [x] [] s t) ∧
    ((∀ k : KeyIdx, s.key[k] = false) →
      exec (.ldVxK x) s = .next s ∧
      (FetchesInstr s (.ldVxK x) →
        ∃ t, step s = .next t ∧ t.pc = s.pc ∧ t.dt.toNat = s.dt.toNat - 1 ∧ t.st.toNat = s.st.toNat - 1))

/-- 43_keys_timers.md R178: LD DT, Vx; the tick of the same step takes one off. -/
def Obligations.LdDtVxSetsThenTicks : Prop :=
  ∀ (s : State) (x : Reg),
    decodeWord (BitVec.ofNat 16 (0xF000 + x.val * 256 + 0x15)) = .ok (.ldDtVx x) ∧
    (∃ t, exec (.ldDtVx x) s = .next t ∧ t.dt = s.getV x ∧ t.pc = s.pc + 2#16 ∧ Frame [] [.dt] s t) ∧
    (FetchesInstr s (.ldDtVx x) → ∃ t, step s = .next t ∧ t.dt.toNat = (s.getV x).toNat - 1)

/-- 43_keys_timers.md R179: LD ST, Vx; the tick of the same step takes one off. With `HAS_FX18` false the word is
illegal. -/
def Obligations.LdStVxSetsThenTicks : Prop :=
  ∀ (s : State) (x : Reg),
    decodeWord (BitVec.ofNat 16 (0xF000 + x.val * 256 + 0x18)) = .ok (.ldStVx x) ∧
    decodeWordWith false (BitVec.ofNat 16 (0xF000 + x.val * 256 + 0x18)) =
      .error (.miscFamily (BitVec.ofNat 16 (0xF000 + x.val * 256 + 0x18))) ∧
    (∃ t, exec (.ldStVx x) s = .next t ∧ t.st = s.getV x ∧ t.pc = s.pc + 2#16 ∧ Frame [] [.st] s t) ∧
    (FetchesInstr s (.ldStVx x) → ∃ t, step s = .next t ∧ t.st.toNat = (s.getV x).toNat - 1)

/-! The address register and block transfers. -/

/-- 44_index_memory.md R190: LD I, nnn. -/
def Obligations.LdISetsIndex : Prop :=
  ∀ (s : State) (nnn : Addr12),
    decodeWord (BitVec.ofNat 16 (0xA000 + nnn.toNat)) = .ok (.ldI nnn) ∧
    ∃ t, exec (.ldI nnn) s = .next t ∧ t.i.toNat = nnn.toNat ∧ t.pc = s.pc + 2#16 ∧ Frame [] [.i] s t

/-- 44_index_memory.md R191: ADD I, Vx: modulo 2^16, no flag. -/
def Obligations.AddIWrapsAtSixteenBits : Prop :=
  ∀ (s : State) (x : Reg),
    decodeWord (BitVec.ofNat 16 (0xF000 + x.val * 256 + 0x1E)) = .ok (.addI x) ∧
    ∃ t, exec (.addI x) s = .next t ∧ t.i.toNat = (s.i.toNat + (s.getV x).toNat) % 65536 ∧ t.pc = s.pc + 2#16 ∧
      Frame [] [.i] s t

/-- 44_index_memory.md R192: LD F, Vx: five times V[x], not masked. -/
def Obligations.LdFPointsAtGlyph : Prop :=
  ∀ (s : State) (x : Reg),
    decodeWord (BitVec.ofNat 16 (0xF000 + x.val * 256 + 0x29)) = .ok (.ldF x) ∧
    ∃ t, exec (.ldF x) s = .next t ∧ t.i.toNat = (s.getV x).toNat * 5 ∧ t.pc = s.pc + 2#16 ∧ Frame [] [.i] s t

/-- 44_index_memory.md R193: LD B, Vx stores hundreds, tens and ones at I; I is unchanged. -/
def Obligations.LdBStoresDigits : Prop :=
  ∀ (s : State) (x : Reg),
    decodeWord (BitVec.ofNat 16 (0xF000 + x.val * 256 + 0x33)) = .ok (.ldB x) ∧
    (Memory.wf s.mem → dataAddr s + 3 ≤ 4096 →
      ∃ t, exec (.ldB x) s = .next t ∧
        (Memory.read t.mem (dataAddr s)).toNat = (s.getV x).toNat / 100 ∧
        (Memory.read t.mem (dataAddr s + 1)).toNat = (s.getV x).toNat / 10 % 10 ∧
        (Memory.read t.mem (dataAddr s + 2)).toNat = (s.getV x).toNat % 10 ∧
        SameOutside (dataAddr s) 3 s t ∧ t.pc = s.pc + 2#16 ∧ Frame [] [.mem] s t) ∧
    (dataAddr s + 3 > 4096 →
      ∃ t, exec (.ldB x) s = .next t ∧ HaltedWith (.address (dataAddr s) 3 .write) s t)

/-- 44_index_memory.md R194: LD [I], Vx stores V0 to V[x] from I on; I is unchanged. -/
def Obligations.LdMemVStoresBlock : Prop :=
  ∀ (s : State) (x : Reg),
    decodeWord (BitVec.ofNat 16 (0xF000 + x.val * 256 + 0x55)) = .ok (.ldMemV x) ∧
    (Memory.wf s.mem → dataAddr s + (x.val + 1) ≤ 4096 →
      ∃ t, exec (.ldMemV x) s = .next t ∧
        (∀ r : Reg, r ≤ x → Memory.read t.mem (dataAddr s + r.val) = s.getV r) ∧
        SameOutside (dataAddr s) (x.val + 1) s t ∧ t.pc = s.pc + 2#16 ∧ Frame [] [.mem] s t) ∧
    (dataAddr s + (x.val + 1) > 4096 →
      ∃ t, exec (.ldMemV x) s = .next t ∧ HaltedWith (.address (dataAddr s) (x.val + 1) .write) s t)

/-- 44_index_memory.md R195: LD Vx, [I] loads V0 to V[x] from I on; I and the registers past V[x] are unchanged. -/
def Obligations.LdVMemLoadsBlock : Prop :=
  ∀ (s : State) (x : Reg),
    decodeWord (BitVec.ofNat 16 (0xF000 + x.val * 256 + 0x65)) = .ok (.ldVMem x) ∧
    (dataAddr s + (x.val + 1) ≤ 4096 →
      ∃ t, exec (.ldVMem x) s = .next t ∧
        (∀ r : Reg, r ≤ x → t.getV r = Memory.read s.mem (dataAddr s + r.val)) ∧
        t.pc = s.pc + 2#16 ∧ Frame ((List.finRange 16).filter (· ≤ x)) [] s t) ∧
    (dataAddr s + (x.val + 1) > 4096 →
      ∃ t, exec (.ldVMem x) s = .next t ∧ HaltedWith (.address (dataAddr s) (x.val + 1) .read) s t)
end

