-- ==== Sys2Proof/Laws/Decode.lean ====
section
/-! SUPPORT. The fields of a word as quotients and remainders, and the fields of a word put together from its parts
(30_encoding.md R70). -/

namespace Sys2Proof

@[simp] theorem bitField_op (w : Word) : bitField w 15 12 = w.toNat / 4096 := by
  have := w.isLt
  simp [bitField]; omega

@[simp] theorem bitField_x (w : Word) : bitField w 11 8 = w.toNat / 256 % 16 := by
  simp [bitField]

@[simp] theorem bitField_y (w : Word) : bitField w 7 4 = w.toNat / 16 % 16 := by
  simp [bitField]

@[simp] theorem bitField_n (w : Word) : bitField w 3 0 = w.toNat % 16 := by
  simp [bitField]

@[simp] theorem bitField_kk (w : Word) : bitField w 7 0 = w.toNat % 256 := by
  simp [bitField]

@[simp] theorem bitField_nnn (w : Word) : bitField w 11 0 = w.toNat % 4096 := by
  simp [bitField]

@[simp] theorem bitField_high (w : Word) : bitField w 15 8 = w.toNat / 256 := by
  have := w.isLt
  simp [bitField]; omega

theorem toNat_nibbles {a b c d : Nat} (ha : a < 16) (hb : b < 16) (hc : c < 16) (hd : d < 16) :
    (nibbles a b c d).toNat = a * 4096 + b * 256 + c * 16 + d := by
  simp [nibbles]; omega

theorem toNat_opXKk {a b c : Nat} (ha : a < 16) (hb : b < 16) (hc : c < 256) :
    (opXKk a b c).toNat = a * 4096 + b * 256 + c := by
  simp [opXKk]; omega

theorem toNat_opNnn {a b : Nat} (ha : a < 16) (hb : b < 4096) : (opNnn a b).toNat = a * 4096 + b := by
  simp [opNnn]; omega

/-- A word is its bytes put together, high byte first (20_memory.md R55). -/
@[simp] theorem wordOfBytes_bytes (w : Word) : wordOfBytes (highByte w) (lowByte w) = w := by
  have := w.isLt
  apply BitVec.eq_of_toNat_eq
  simp [wordOfBytes, highByte, lowByte]; omega

/-- The bytes of a word decode as the word does. -/
theorem decodeBytes_word (w : Word) (rest : List Byte) :
    decodeBytes (highByte w :: lowByte w :: rest) =
      match decodeWord w with
      | .ok i => .ok (i, rest)
      | .error e => .error e := by
  cases h : decodeWord w <;> simp [decodeBytes, h]

end Sys2Proof
end

