-- ==== Sys2Proof/Laws/Display.lean ====
section
/-! SUPPORT. What one pixel of the sprite loop does to every cell (42_display.md R152). -/

namespace Sys2Proof.Machine

/-- One pixel changes its own cell only, by XOR. -/
theorem xorCell_cell (fb : Framebuffer) (row : Fin 32) (col : Fin 64) (bit : Bool) (r : Fin 32) (c : Fin 64) :
    (xorCell fb row col bit)[r][c] = if row = r ∧ col = c then fb[r][c] ^^ bit else fb[r][c] := by
  simp only [xorCell, Fin.getElem_fin, Vector.getElem_set]
  by_cases hr : row = r
  · subst hr
    by_cases hc : col = c
    · subst hc; simp
    · have : (col : Nat) ≠ c := fun h => hc (Fin.ext h)
      simp [hc, this]
  · have : (row : Nat) ≠ r := fun h => hr (Fin.ext h)
    simp [hr, this]

/-- A pixel collides exactly where its bit is 1 and the cell was 1 (42_display.md R153). -/
theorem drawPixel_hit (x : Nat) (row : Fin 32) (byte : Byte) (p : Framebuffer × Bool) (b : Nat) :
    (drawPixel x row byte p b).2 = (p.2 || (spriteBit byte b && p.1[row][Fin.ofNat 64 (x + b)])) := rfl

/-- One pixel of the loop changes the cell at its row and column only. -/
theorem drawPixel_cell (x : Nat) (row : Fin 32) (byte : Byte) (p : Framebuffer × Bool) (b : Nat)
    (r : Fin 32) (c : Fin 64) :
    (drawPixel x row byte p b).1[r][c] =
      if row = r ∧ Fin.ofNat 64 (x + b) = c then p.1[r][c] ^^ spriteBit byte b else p.1[r][c] :=
  xorCell_cell _ _ _ _ _ _

/-- Every cell of the blank framebuffer is 0 (42_display.md R151). -/
@[simp] theorem blankFb_cell (r : Fin 32) (c : Fin 64) : blankFb[r][c] = false := by
  simp [blankFb]

end Sys2Proof.Machine
end

