-- ==== Sys2Proof/Laws/Memory.lean ====
section
/-! SUPPORT. The laws of memory: a store is read back, leaves every other address alone and keeps the one form
(20_memory.md R51, R52, R53). -/

namespace Sys2Proof.Machine

/-- A store leaves every other address alone, in any list. -/
theorem Memory.read_write_other (m : Memory) {a b : Nat} (w : Byte) (h : b ≠ a) :
    Memory.read (Memory.write m a w) b = Memory.read m b := by
  induction m with
  | nil => unfold Memory.write; split <;> simp_all [Memory.read]
  | cons c m ih =>
    obtain ⟨k, u⟩ := c
    unfold Memory.write
    split
    · split <;> simp [Memory.read, h]
    · split
      · subst k; split <;> simp [Memory.read, h]
      · simp [Memory.read, ih]

/-- An address that no cell lists reads as its reset contents. -/
theorem Memory.read_not_listed (m : Memory) {a : Nat} (h : ∀ c ∈ m, c.1 ≠ a) :
    Memory.read m a = Memory.unlisted a := by
  induction m with
  | nil => rfl
  | cons c m ih =>
    have hc := h c (by simp)
    simp [Memory.read, Ne.symm hc, ih fun d hd => h d (by simp [hd])]

/-- A stored byte is read back (20_memory.md R53). -/
theorem Memory.read_write_same (m : Memory) (a : Nat) (w : Byte) (hm : m.Pairwise fun c d => c.1 < d.1) :
    Memory.read (Memory.write m a w) a = w := by
  induction m with
  | nil => unfold Memory.write; split <;> simp_all [Memory.read]
  | cons c m ih =>
    obtain ⟨k, u⟩ := c
    obtain ⟨hk, hm'⟩ := List.pairwise_cons.mp hm
    unfold Memory.write
    split
    · rename_i hlt
      split
      · rename_i hw
        rw [hw]
        refine Memory.read_not_listed _ fun d hd => ?_
        rcases List.mem_cons.mp hd with rfl | hd
        · exact Nat.ne_of_gt hlt
        · exact Nat.ne_of_gt (Nat.lt_trans hlt (hk d hd))
      · simp [Memory.read]
    · split
      · rename_i heq
        subst k
        split
        · rename_i hw
          rw [hw]
          exact Memory.read_not_listed _ fun d hd => Nat.ne_of_gt (hk d hd)
        · simp [Memory.read]
      · rename_i hne
        simp [Memory.read, hne, ih hm']

/-- Every cell after a store is an old cell or the stored one, which then differs from its reset contents. -/
theorem Memory.mem_write {m : Memory} {a : Nat} {w : Byte} {c : Host.Cell} (h : c ∈ Memory.write m a w) :
    c ∈ m ∨ c = (a, w) ∧ w ≠ Memory.unlisted a := by
  induction m with
  | nil => unfold Memory.write at h; split at h <;> simp_all
  | cons d m ih =>
    obtain ⟨k, u⟩ := d
    unfold Memory.write at h
    split at h
    · split at h
      · exact .inl h
      · rcases List.mem_cons.mp h with rfl | h
        · exact .inr ⟨rfl, ‹_›⟩
        · exact .inl h
    · split at h
      · split at h
        · exact .inl (by simp [h])
        · rcases List.mem_cons.mp h with rfl | h
          · exact .inr ⟨rfl, ‹_›⟩
          · exact .inl (by simp [h])
      · rcases List.mem_cons.mp h with rfl | h
        · exact .inl (by simp)
        · exact (ih h).imp_left fun h' => by simp [h']

/-- A store keeps the addresses rising. -/
theorem Memory.write_sorted {m : Memory} (a : Nat) (w : Byte) (hm : m.Pairwise fun c d => c.1 < d.1) :
    (Memory.write m a w).Pairwise fun c d => c.1 < d.1 := by
  induction m with
  | nil => unfold Memory.write; split <;> simp
  | cons c m ih =>
    obtain ⟨k, u⟩ := c
    obtain ⟨hk, hm'⟩ := List.pairwise_cons.mp hm
    unfold Memory.write
    split
    · rename_i hlt
      split
      · exact hm
      · refine List.pairwise_cons.mpr ⟨fun d hd => ?_, hm⟩
        rcases List.mem_cons.mp hd with rfl | hd
        · exact hlt
        · exact Nat.lt_trans hlt (hk d hd)
    · rename_i hge
      split
      · rename_i heq
        subst k
        split
        · exact hm'
        · exact List.pairwise_cons.mpr ⟨hk, hm'⟩
      · rename_i hne
        refine List.pairwise_cons.mpr ⟨fun d hd => ?_, ih hm'⟩
        rcases Memory.mem_write hd with hd | ⟨rfl, -⟩
        · exact hk d hd
        · exact Nat.lt_of_le_of_ne (Nat.le_of_not_lt hge) (Ne.symm hne)

/-- A store inside memory keeps the one form. -/
theorem Memory.write_wf {m : Memory} {a : Nat} (w : Byte) (hm : Memory.wf m) (ha : a < 4096) :
    Memory.wf (Memory.write m a w) := by
  refine ⟨Memory.write_sorted a w hm.1, fun c hc => ?_⟩
  rcases Memory.mem_write hc with hc | ⟨rfl, hw⟩
  · exact hm.2 c hc
  · exact ⟨ha, hw⟩

/-- A run of stores inside memory keeps the one form. -/
theorem Memory.writeBytes_wf {m : Memory} {a : Nat} (ws : List Byte) (hm : Memory.wf m)
    (ha : a + ws.length ≤ 4096) : Memory.wf (Memory.writeBytes m a ws) := by
  induction ws generalizing m a with
  | nil => exact hm
  | cons w ws ih =>
    simp only [List.length_cons] at ha
    exact ih (Memory.write_wf w hm (by omega)) (by omega)

/-- A run of stores leaves every address outside it alone. -/
theorem Memory.read_writeBytes_other (m : Memory) {a b : Nat} (ws : List Byte) (h : b < a ∨ a + ws.length ≤ b) :
    Memory.read (Memory.writeBytes m a ws) b = Memory.read m b := by
  induction ws generalizing m a with
  | nil => rfl
  | cons w ws ih =>
    simp only [List.length_cons] at h
    rw [Memory.writeBytes, ih _ (by omega), Memory.read_write_other _ _ (by omega)]

/-- Byte `k` of a run of stores is read back at its address. -/
theorem Memory.read_writeBytes_same (m : Memory) (a : Nat) (ws : List Byte) (hm : m.Pairwise fun c d => c.1 < d.1)
    {k : Nat} (hk : k < ws.length) : Memory.read (Memory.writeBytes m a ws) (a + k) = ws[k] := by
  induction ws generalizing m a k with
  | nil => simp at hk
  | cons w ws ih =>
    rw [Memory.writeBytes]
    cases k with
    | zero =>
      rw [Memory.read_writeBytes_other _ _ (.inl (by omega))]
      exact Memory.read_write_same m a w hm
    | succ k =>
      have := ih (Memory.write m a w) (a + 1) (Memory.write_sorted a w hm) (k := k)
        (by simpa using hk)
      simpa [Nat.add_assoc, Nat.add_comm 1 k] using this

@[simp] theorem Memory.length_readBytes (m : Memory) (a n : Nat) : (Memory.readBytes m a n).length = n := by
  induction n generalizing a with
  | zero => rfl
  | succ n ih => simp [Memory.readBytes, ih]

/-- Byte `k` of a read is the byte at its address (20_memory.md R51). -/
theorem Memory.getElem_readBytes (m : Memory) (a n k : Nat) (h : k < (Memory.readBytes m a n).length) :
    (Memory.readBytes m a n)[k] = Memory.read m (a + k) := by
  induction n generalizing a k with
  | zero => simp [Memory.readBytes] at h
  | succ n ih =>
    cases k with
    | zero => rfl
    | succ k =>
      simp only [Memory.readBytes, List.getElem_cons_succ]
      rw [ih, Nat.add_assoc, Nat.add_comm 1 k]

/-- Two memories in the one form that read alike everywhere are the same list. -/
theorem Memory.eq_of_read_eq {m n : Memory} (hm : Memory.wf m) (hn : Memory.wf n)
    (h : ∀ a, Memory.read m a = Memory.read n a) : m = n := by
  induction m generalizing n with
  | nil =>
    cases n with
    | nil => rfl
    | cons d n =>
      exact absurd (by simpa [Memory.read] using (h d.1).symm) (hn.2 d (by simp)).2
  | cons c m ih =>
    obtain ⟨k, u⟩ := c
    obtain ⟨hk, hm'⟩ := List.pairwise_cons.mp hm.1
    have hu := (hm.2 (k, u) (by simp)).2
    cases n with
    | nil => exact absurd (by simpa [Memory.read] using h k) hu
    | cons d n =>
      obtain ⟨j, w⟩ := d
      obtain ⟨hj, hn'⟩ := List.pairwise_cons.mp hn.1
      have hw := (hn.2 (j, w) (by simp)).2
      have hkj : k = j := by
        rcases Nat.lt_trichotomy k j with hlt | heq | hgt
        · have := Memory.read_not_listed ((j, w) :: n) (a := k) fun e he => by
            rcases List.mem_cons.mp he with rfl | he
            · exact Nat.ne_of_gt hlt
            · exact Nat.ne_of_gt (Nat.lt_trans hlt (hj e he))
          exact absurd (by have := (h k).trans this; simpa [Memory.read] using this) hu
        · exact heq
        · have := Memory.read_not_listed ((k, u) :: m) (a := j) fun e he => by
            rcases List.mem_cons.mp he with rfl | he
            · exact Nat.ne_of_gt hgt
            · exact Nat.ne_of_gt (Nat.lt_trans hgt (hk e he))
          exact absurd (by have := (h j).symm.trans this; simpa [Memory.read] using this) hw
      subst j
      have huw : u = w := by simpa [Memory.read] using h k
      subst w
      congr 1
      refine ih ⟨hm', fun c hc => hm.2 c (by simp [hc])⟩ ⟨hn', fun c hc => hn.2 c (by simp [hc])⟩ fun a => ?_
      by_cases ha : a = k
      · subst a
        rw [Memory.read_not_listed m fun e he => Nat.ne_of_gt (hk e he),
          Memory.read_not_listed n fun e he => Nat.ne_of_gt (hj e he)]
      · simpa [Memory.read, ha] using h a

/-! The checked accesses. -/

/-- `MemRead` answers the bytes exactly where the range lies in memory (20_memory.md R51). -/
theorem memRead_ok_iff (m : Memory) (d : Direction) (a n : Nat) (bs : List Byte) :
    memRead m d a n = .ok bs ↔ a + n ≤ 4096 ∧ bs = Memory.readBytes m a n := by
  unfold memRead
  split
  · simp; omega
  · rename_i h
    simp only [Except.ok.injEq, eq_comm, Nat.le_of_not_lt h, true_and]

/-- `MemRead` faults exactly where the range leaves memory, and its fault holds the access (20_memory.md R51). -/
theorem memRead_error_iff (m : Memory) (d : Direction) (a n : Nat) (f : Fault) :
    memRead m d a n = .error f ↔ a + n > 4096 ∧ f = .address a n d := by
  unfold memRead
  split
  · rename_i h
    simp only [Except.error.injEq, eq_comm, h, true_and]
  · simp; omega

/-- `MemWrite` stores the bytes exactly where the range lies in memory (20_memory.md R52). -/
theorem memWrite_ok_iff (m : Memory) (a : Nat) (bs : List Byte) (m' : Memory) :
    memWrite m a bs = .ok m' ↔ a + bs.length ≤ 4096 ∧ m' = Memory.writeBytes m a bs := by
  unfold memWrite
  split
  · simp; omega
  · rename_i h
    simp only [Except.ok.injEq, eq_comm, Nat.le_of_not_lt h, true_and]

/-- `MemWrite` faults exactly where the range leaves memory, and its fault holds the access (20_memory.md R52). -/
theorem memWrite_error_iff (m : Memory) (a : Nat) (bs : List Byte) (f : Fault) :
    memWrite m a bs = .error f ↔ a + bs.length > 4096 ∧ f = .address a bs.length .write := by
  unfold memWrite
  split
  · rename_i h
    simp only [Except.error.injEq, eq_comm, h, true_and]
  · simp; omega

/-- A checked store keeps the one form of memory. -/
theorem memWrite_wf {m m' : Memory} {a : Nat} {bs : List Byte} (h : memWrite m a bs = .ok m') (hm : Memory.wf m) :
    Memory.wf m' := by
  obtain ⟨ha, rfl⟩ := (memWrite_ok_iff m a bs m').mp h
  exact Memory.writeBytes_wf bs hm ha

/-! The memory a reset leaves. -/

/-- A reset memory reads, at every address, the glyph bytes and 0 after them (70_reset_and_hazards.md R241, R242). -/
theorem Memory.read_seeded {glyphs : List Byte} (h : glyphs.length = 80) (a : Nat) :
    Memory.read (Memory.seeded glyphs) a = resetByte glyphs a := by
  rcases Nat.lt_or_ge a glyphs.length with ha | ha
  · have := Memory.read_writeBytes_same [] 0 glyphs .nil ha
    simpa [Memory.seeded, resetByte, ha] using this
  · rw [Memory.seeded, Memory.read_writeBytes_other _ _ (.inr (by omega))]
    have : font.length ≤ a := by rw [h] at ha; exact ha
    simp [Memory.read, Memory.unlisted, resetByte, ha, this]

/-- A reset memory has the one form, whatever `FONT` is. -/
theorem Memory.seeded_wf {glyphs : List Byte} (h : glyphs.length ≤ 4096) : Memory.wf (Memory.seeded glyphs) :=
  Memory.writeBytes_wf glyphs ⟨.nil, by simp⟩ (by omega)

/-- With the default `FONT`, nothing is listed. -/
theorem Memory.seeded_font : Memory.seeded font = [] :=
  Memory.eq_of_read_eq (Memory.seeded_wf (by decide)) ⟨.nil, by simp⟩ fun a => Memory.read_seeded (by decide) a

/-- The reset memory has the one form. -/
theorem Memory.reset_wf : Memory.wf State.reset.mem := by
  simp [State.reset, Memory.wf]

end Sys2Proof.Machine
end

