-- ==== Sys2Proof/Laws/PerInstr.lean ====
section
/-! SUPPORT. Statements for all instructions, one lemma per constructor. Family `EncodedFamily`: the primary opcode
family (bits 15..12, 30_encoding.md R70) of an instruction's word is the first digit of its format in
spec/opcode_table.json. -/

namespace Sys2Proof.Laws

/-- The first digit of the instruction's format in the opcode table. -/
def familyDigit : Instr → Nat
  | .cls | .ret => 0x0
  | .jp _ => 0x1
  | .call _ => 0x2
  | .seImm _ _ => 0x3
  | .sneImm _ _ => 0x4
  | .seReg _ _ => 0x5
  | .ldImm _ _ => 0x6
  | .addImm _ _ => 0x7
  | .ldReg _ _ | .or _ _ | .and _ _ | .xor _ _ | .addReg _ _ | .sub _ _ | .shr _ _ | .subn _ _ | .shl _ _ => 0x8
  | .sneReg _ _ => 0x9
  | .ldI _ => 0xA
  | .jpV0 _ => 0xB
  | .rnd _ _ => 0xC
  | .drw _ _ _ => 0xD
  | .skp _ | .sknp _ => 0xE
  | .ldVxDt _ | .ldVxK _ | .ldDtVx _ | .ldStVx _ | .addI _ | .ldF _ | .ldB _ | .ldMemV _ | .ldVMem _ => 0xF

/-- The word's family is the format's first digit. -/
def EncodedFamily.Statement (i : Instr) : Prop := fieldOp (encode i) = familyDigit i

theorem fieldOp_nibbles {a b c d : Nat} (ha : a < 16) (hb : b < 16) (hc : c < 16) (hd : d < 16) :
    fieldOp (nibbles a b c d) = a := by
  rw [fieldOp, bitField_op, toNat_nibbles ha hb hc hd]; omega

theorem fieldOp_opXKk {a b c : Nat} (ha : a < 16) (hb : b < 16) (hc : c < 256) : fieldOp (opXKk a b c) = a := by
  rw [fieldOp, bitField_op, toNat_opXKk ha hb hc]; omega

theorem fieldOp_opNnn {a b : Nat} (ha : a < 16) (hb : b < 4096) : fieldOp (opNnn a b) = a := by
  rw [fieldOp, bitField_op, toNat_opNnn ha hb]; omega

theorem EncodedFamily.cls : EncodedFamily.Statement .cls :=
  by unfold EncodedFamily.Statement; decide

theorem EncodedFamily.ret : EncodedFamily.Statement .ret :=
  by unfold EncodedFamily.Statement; decide

theorem EncodedFamily.jp (nnn : Addr12) : EncodedFamily.Statement (.jp nnn) :=
  fieldOp_opNnn (by decide) nnn.isLt

theorem EncodedFamily.call (nnn : Addr12) : EncodedFamily.Statement (.call nnn) :=
  fieldOp_opNnn (by decide) nnn.isLt

theorem EncodedFamily.seImm (x : Reg) (kk : Byte) : EncodedFamily.Statement (.seImm x kk) :=
  fieldOp_opXKk (by decide) x.isLt kk.isLt

theorem EncodedFamily.sneImm (x : Reg) (kk : Byte) : EncodedFamily.Statement (.sneImm x kk) :=
  fieldOp_opXKk (by decide) x.isLt kk.isLt

theorem EncodedFamily.seReg (x y : Reg) : EncodedFamily.Statement (.seReg x y) :=
  fieldOp_nibbles (by decide) x.isLt y.isLt (by decide)

theorem EncodedFamily.ldImm (x : Reg) (kk : Byte) : EncodedFamily.Statement (.ldImm x kk) :=
  fieldOp_opXKk (by decide) x.isLt kk.isLt

theorem EncodedFamily.addImm (x : Reg) (kk : Byte) : EncodedFamily.Statement (.addImm x kk) :=
  fieldOp_opXKk (by decide) x.isLt kk.isLt

theorem EncodedFamily.ldReg (x y : Reg) : EncodedFamily.Statement (.ldReg x y) :=
  fieldOp_nibbles (by decide) x.isLt y.isLt (by decide)

theorem EncodedFamily.or (x y : Reg) : EncodedFamily.Statement (.or x y) :=
  fieldOp_nibbles (by decide) x.isLt y.isLt (by decide)

theorem EncodedFamily.and (x y : Reg) : EncodedFamily.Statement (.and x y) :=
  fieldOp_nibbles (by decide) x.isLt y.isLt (by decide)

theorem EncodedFamily.xor (x y : Reg) : EncodedFamily.Statement (.xor x y) :=
  fieldOp_nibbles (by decide) x.isLt y.isLt (by decide)

theorem EncodedFamily.addReg (x y : Reg) : EncodedFamily.Statement (.addReg x y) :=
  fieldOp_nibbles (by decide) x.isLt y.isLt (by decide)

theorem EncodedFamily.sub (x y : Reg) : EncodedFamily.Statement (.sub x y) :=
  fieldOp_nibbles (by decide) x.isLt y.isLt (by decide)

theorem EncodedFamily.shr (x y : Reg) : EncodedFamily.Statement (.shr x y) :=
  fieldOp_nibbles (by decide) x.isLt y.isLt (by decide)

theorem EncodedFamily.subn (x y : Reg) : EncodedFamily.Statement (.subn x y) :=
  fieldOp_nibbles (by decide) x.isLt y.isLt (by decide)

theorem EncodedFamily.shl (x y : Reg) : EncodedFamily.Statement (.shl x y) :=
  fieldOp_nibbles (by decide) x.isLt y.isLt (by decide)

theorem EncodedFamily.sneReg (x y : Reg) : EncodedFamily.Statement (.sneReg x y) :=
  fieldOp_nibbles (by decide) x.isLt y.isLt (by decide)

theorem EncodedFamily.ldI (nnn : Addr12) : EncodedFamily.Statement (.ldI nnn) :=
  fieldOp_opNnn (by decide) nnn.isLt

theorem EncodedFamily.jpV0 (nnn : Addr12) : EncodedFamily.Statement (.jpV0 nnn) :=
  fieldOp_opNnn (by decide) nnn.isLt

theorem EncodedFamily.rnd (x : Reg) (kk : Byte) : EncodedFamily.Statement (.rnd x kk) :=
  fieldOp_opXKk (by decide) x.isLt kk.isLt

theorem EncodedFamily.drw (x y : Reg) (n : Count) : EncodedFamily.Statement (.drw x y n) :=
  fieldOp_nibbles (by decide) x.isLt y.isLt n.isLt

theorem EncodedFamily.skp (x : Reg) : EncodedFamily.Statement (.skp x) :=
  fieldOp_opXKk (by decide) x.isLt (by decide)

theorem EncodedFamily.sknp (x : Reg) : EncodedFamily.Statement (.sknp x) :=
  fieldOp_opXKk (by decide) x.isLt (by decide)

theorem EncodedFamily.ldVxDt (x : Reg) : EncodedFamily.Statement (.ldVxDt x) :=
  fieldOp_opXKk (by decide) x.isLt (by decide)

theorem EncodedFamily.ldVxK (x : Reg) : EncodedFamily.Statement (.ldVxK x) :=
  fieldOp_opXKk (by decide) x.isLt (by decide)

theorem EncodedFamily.ldDtVx (x : Reg) : EncodedFamily.Statement (.ldDtVx x) :=
  fieldOp_opXKk (by decide) x.isLt (by decide)

theorem EncodedFamily.ldStVx (x : Reg) : EncodedFamily.Statement (.ldStVx x) :=
  fieldOp_opXKk (by decide) x.isLt (by decide)

theorem EncodedFamily.addI (x : Reg) : EncodedFamily.Statement (.addI x) :=
  fieldOp_opXKk (by decide) x.isLt (by decide)

theorem EncodedFamily.ldF (x : Reg) : EncodedFamily.Statement (.ldF x) :=
  fieldOp_opXKk (by decide) x.isLt (by decide)

theorem EncodedFamily.ldB (x : Reg) : EncodedFamily.Statement (.ldB x) :=
  fieldOp_opXKk (by decide) x.isLt (by decide)

theorem EncodedFamily.ldMemV (x : Reg) : EncodedFamily.Statement (.ldMemV x) :=
  fieldOp_opXKk (by decide) x.isLt (by decide)

theorem EncodedFamily.ldVMem (x : Reg) : EncodedFamily.Statement (.ldVMem x) :=
  fieldOp_opXKk (by decide) x.isLt (by decide)

end Sys2Proof.Laws
end

