-- ==== Sys2Proof/Laws/Run.lean ====
section
/-! SUPPORT. Runs of the core, one step at a time. -/

namespace Sys2Proof

/-- A run of no steps stays where it is. -/
theorem run_zero (M : Host.Core) (s : M.State) : M.run 0 s = .next s := rfl

/-- A run whose first step answers next goes on from there. -/
theorem run_succ (M : Host.Core) (k : Nat) {s t : M.State} (h : M.step s = .next t) :
    M.run (k + 1) s = M.run k t := by
  simp [Host.Core.run, h]

/-- The same for this core. -/
theorem core_run_succ (k : Nat) {s t : Machine.State} (h : Machine.step s = .next t) :
    core.run (k + 1) s = core.run k t :=
  run_succ core k h

end Sys2Proof
end

