-- ==== Sys2Proof/Laws/State.lean ====
section
/-! SUPPORT. What each named update of the state does to each field, so that no proof unfolds a record update. -/

namespace Sys2Proof.Machine

/-! Writing a general register. -/

@[simp] theorem State.setV_v (s : State) (x : Reg) (b : Byte) : (s.setV x b).v = s.v.set x b := rfl
@[simp] theorem State.setV_i (s : State) (x : Reg) (b : Byte) : (s.setV x b).i = s.i := rfl
@[simp] theorem State.setV_pc (s : State) (x : Reg) (b : Byte) : (s.setV x b).pc = s.pc := rfl
@[simp] theorem State.setV_stack (s : State) (x : Reg) (b : Byte) : (s.setV x b).stack = s.stack := rfl
@[simp] theorem State.setV_dt (s : State) (x : Reg) (b : Byte) : (s.setV x b).dt = s.dt := rfl
@[simp] theorem State.setV_st (s : State) (x : Reg) (b : Byte) : (s.setV x b).st = s.st := rfl
@[simp] theorem State.setV_mem (s : State) (x : Reg) (b : Byte) : (s.setV x b).mem = s.mem := rfl
@[simp] theorem State.setV_fb (s : State) (x : Reg) (b : Byte) : (s.setV x b).fb = s.fb := rfl
@[simp] theorem State.setV_key (s : State) (x : Reg) (b : Byte) : (s.setV x b).key = s.key := rfl
@[simp] theorem State.setV_fault (s : State) (x : Reg) (b : Byte) : (s.setV x b).fault = s.fault := rfl
@[simp] theorem State.setV_draws (s : State) (x : Reg) (b : Byte) : (s.setV x b).draws = s.draws := rfl

/-- Reading a register after a write: the written value at that register, the old one elsewhere. -/
theorem State.setV_getV (s : State) (x : Reg) (b : Byte) (r : Reg) :
    (s.setV x b).getV r = if x = r then b else s.getV r := by
  simp [State.getV, State.setV, Vector.getElem_set, Fin.ext_iff]

@[simp] theorem State.setV_getV_same (s : State) (x : Reg) (b : Byte) : (s.setV x b).getV x = b := by
  simp [State.setV_getV]

theorem State.setV_getV_other (s : State) {x r : Reg} (b : Byte) (h : x ≠ r) : (s.setV x b).getV r = s.getV r := by
  simp [State.setV_getV, h]

/-! Writing the pc. -/

@[simp] theorem State.jumpTo_v (s : State) (p : Word) : (s.jumpTo p).v = s.v := rfl
@[simp] theorem State.jumpTo_i (s : State) (p : Word) : (s.jumpTo p).i = s.i := rfl
@[simp] theorem State.jumpTo_pc (s : State) (p : Word) : (s.jumpTo p).pc = p := rfl
@[simp] theorem State.jumpTo_stack (s : State) (p : Word) : (s.jumpTo p).stack = s.stack := rfl
@[simp] theorem State.jumpTo_dt (s : State) (p : Word) : (s.jumpTo p).dt = s.dt := rfl
@[simp] theorem State.jumpTo_st (s : State) (p : Word) : (s.jumpTo p).st = s.st := rfl
@[simp] theorem State.jumpTo_mem (s : State) (p : Word) : (s.jumpTo p).mem = s.mem := rfl
@[simp] theorem State.jumpTo_fb (s : State) (p : Word) : (s.jumpTo p).fb = s.fb := rfl
@[simp] theorem State.jumpTo_key (s : State) (p : Word) : (s.jumpTo p).key = s.key := rfl
@[simp] theorem State.jumpTo_fault (s : State) (p : Word) : (s.jumpTo p).fault = s.fault := rfl
@[simp] theorem State.jumpTo_draws (s : State) (p : Word) : (s.jumpTo p).draws = s.draws := rfl
@[simp] theorem State.jumpTo_getV (s : State) (p : Word) (r : Reg) : (s.jumpTo p).getV r = s.getV r := rfl

/-! The default advance. -/

@[simp] theorem State.advance_v (s : State) : (s.advance).v = s.v := rfl
@[simp] theorem State.advance_i (s : State) : (s.advance).i = s.i := rfl
@[simp] theorem State.advance_pc (s : State) : (s.advance).pc = s.pc + 2#16 := rfl
@[simp] theorem State.advance_stack (s : State) : (s.advance).stack = s.stack := rfl
@[simp] theorem State.advance_dt (s : State) : (s.advance).dt = s.dt := rfl
@[simp] theorem State.advance_st (s : State) : (s.advance).st = s.st := rfl
@[simp] theorem State.advance_mem (s : State) : (s.advance).mem = s.mem := rfl
@[simp] theorem State.advance_fb (s : State) : (s.advance).fb = s.fb := rfl
@[simp] theorem State.advance_key (s : State) : (s.advance).key = s.key := rfl
@[simp] theorem State.advance_fault (s : State) : (s.advance).fault = s.fault := rfl
@[simp] theorem State.advance_draws (s : State) : (s.advance).draws = s.draws := rfl
@[simp] theorem State.advance_getV (s : State) (r : Reg) : (s.advance).getV r = s.getV r := rfl

/-! The skip advance. -/

@[simp] theorem State.skipIf_v (s : State) (c : Bool) : (s.skipIf c).v = s.v := rfl
@[simp] theorem State.skipIf_i (s : State) (c : Bool) : (s.skipIf c).i = s.i := rfl
@[simp] theorem State.skipIf_pc (s : State) (c : Bool) : (s.skipIf c).pc = if c then s.pc + 4#16 else s.pc + 2#16 := rfl
@[simp] theorem State.skipIf_stack (s : State) (c : Bool) : (s.skipIf c).stack = s.stack := rfl
@[simp] theorem State.skipIf_dt (s : State) (c : Bool) : (s.skipIf c).dt = s.dt := rfl
@[simp] theorem State.skipIf_st (s : State) (c : Bool) : (s.skipIf c).st = s.st := rfl
@[simp] theorem State.skipIf_mem (s : State) (c : Bool) : (s.skipIf c).mem = s.mem := rfl
@[simp] theorem State.skipIf_fb (s : State) (c : Bool) : (s.skipIf c).fb = s.fb := rfl
@[simp] theorem State.skipIf_key (s : State) (c : Bool) : (s.skipIf c).key = s.key := rfl
@[simp] theorem State.skipIf_fault (s : State) (c : Bool) : (s.skipIf c).fault = s.fault := rfl
@[simp] theorem State.skipIf_draws (s : State) (c : Bool) : (s.skipIf c).draws = s.draws := rfl
@[simp] theorem State.skipIf_getV (s : State) (c : Bool) (r : Reg) : (s.skipIf c).getV r = s.getV r := rfl

/-! Fault entry. -/

@[simp] theorem State.raiseWith_v (s : State) (w : Option Word) (f : Fault) : (s.raiseWith w f).v = s.v := rfl
@[simp] theorem State.raiseWith_i (s : State) (w : Option Word) (f : Fault) : (s.raiseWith w f).i = s.i := rfl
@[simp] theorem State.raiseWith_pc (s : State) (w : Option Word) (f : Fault) : (s.raiseWith w f).pc = s.pc := rfl
@[simp] theorem State.raiseWith_stack (s : State) (w : Option Word) (f : Fault) : (s.raiseWith w f).stack = s.stack := rfl
@[simp] theorem State.raiseWith_dt (s : State) (w : Option Word) (f : Fault) : (s.raiseWith w f).dt = s.dt := rfl
@[simp] theorem State.raiseWith_st (s : State) (w : Option Word) (f : Fault) : (s.raiseWith w f).st = s.st := rfl
@[simp] theorem State.raiseWith_mem (s : State) (w : Option Word) (f : Fault) : (s.raiseWith w f).mem = s.mem := rfl
@[simp] theorem State.raiseWith_fb (s : State) (w : Option Word) (f : Fault) : (s.raiseWith w f).fb = s.fb := rfl
@[simp] theorem State.raiseWith_key (s : State) (w : Option Word) (f : Fault) : (s.raiseWith w f).key = s.key := rfl
@[simp] theorem State.raiseWith_fault (s : State) (w : Option Word) (f : Fault) : (s.raiseWith w f).fault = some { cause := f, pc := s.pc, word := w } := rfl
@[simp] theorem State.raiseWith_draws (s : State) (w : Option Word) (f : Fault) : (s.raiseWith w f).draws = s.draws := rfl
@[simp] theorem State.raiseWith_getV (s : State) (w : Option Word) (f : Fault) (r : Reg) : (s.raiseWith w f).getV r = s.getV r := rfl

/-! Fault entry of the executing instruction. -/

@[simp] theorem State.raise_v (s : State) (f : Fault) : (s.raise f).v = s.v := rfl
@[simp] theorem State.raise_i (s : State) (f : Fault) : (s.raise f).i = s.i := rfl
@[simp] theorem State.raise_pc (s : State) (f : Fault) : (s.raise f).pc = s.pc := rfl
@[simp] theorem State.raise_stack (s : State) (f : Fault) : (s.raise f).stack = s.stack := rfl
@[simp] theorem State.raise_dt (s : State) (f : Fault) : (s.raise f).dt = s.dt := rfl
@[simp] theorem State.raise_st (s : State) (f : Fault) : (s.raise f).st = s.st := rfl
@[simp] theorem State.raise_mem (s : State) (f : Fault) : (s.raise f).mem = s.mem := rfl
@[simp] theorem State.raise_fb (s : State) (f : Fault) : (s.raise f).fb = s.fb := rfl
@[simp] theorem State.raise_key (s : State) (f : Fault) : (s.raise f).key = s.key := rfl
@[simp] theorem State.raise_fault (s : State) (f : Fault) : (s.raise f).fault = some { cause := f, pc := s.pc, word := fetchedWord s } := rfl
@[simp] theorem State.raise_draws (s : State) (f : Fault) : (s.raise f).draws = s.draws := rfl
@[simp] theorem State.raise_getV (s : State) (f : Fault) (r : Reg) : (s.raise f).getV r = s.getV r := rfl

/-! Taking a draw. -/

@[simp] theorem State.takeDraw_v (s : State) : (s.takeDraw).v = s.v := rfl
@[simp] theorem State.takeDraw_i (s : State) : (s.takeDraw).i = s.i := rfl
@[simp] theorem State.takeDraw_pc (s : State) : (s.takeDraw).pc = s.pc := rfl
@[simp] theorem State.takeDraw_stack (s : State) : (s.takeDraw).stack = s.stack := rfl
@[simp] theorem State.takeDraw_dt (s : State) : (s.takeDraw).dt = s.dt := rfl
@[simp] theorem State.takeDraw_st (s : State) : (s.takeDraw).st = s.st := rfl
@[simp] theorem State.takeDraw_mem (s : State) : (s.takeDraw).mem = s.mem := rfl
@[simp] theorem State.takeDraw_fb (s : State) : (s.takeDraw).fb = s.fb := rfl
@[simp] theorem State.takeDraw_key (s : State) : (s.takeDraw).key = s.key := rfl
@[simp] theorem State.takeDraw_fault (s : State) : (s.takeDraw).fault = s.fault := rfl
@[simp] theorem State.takeDraw_draws (s : State) : (s.takeDraw).draws = s.draws + 1 := rfl
@[simp] theorem State.takeDraw_getV (s : State) (r : Reg) : (s.takeDraw).getV r = s.getV r := rfl

/-! The tick. -/

@[simp] theorem State.tick_v (s : State) : (s.tick).v = s.v := rfl
@[simp] theorem State.tick_i (s : State) : (s.tick).i = s.i := rfl
@[simp] theorem State.tick_pc (s : State) : (s.tick).pc = s.pc := rfl
@[simp] theorem State.tick_stack (s : State) : (s.tick).stack = s.stack := rfl
@[simp] theorem State.tick_dt (s : State) : (s.tick).dt = countDown s.dt := rfl
@[simp] theorem State.tick_st (s : State) : (s.tick).st = countDown s.st := rfl
@[simp] theorem State.tick_mem (s : State) : (s.tick).mem = s.mem := rfl
@[simp] theorem State.tick_fb (s : State) : (s.tick).fb = s.fb := rfl
@[simp] theorem State.tick_key (s : State) : (s.tick).key = s.key := rfl
@[simp] theorem State.tick_fault (s : State) : (s.tick).fault = s.fault := rfl
@[simp] theorem State.tick_draws (s : State) : (s.tick).draws = s.draws := rfl
@[simp] theorem State.tick_getV (s : State) (r : Reg) : (s.tick).getV r = s.getV r := rfl

/-! The host's reset. -/

@[simp] theorem State.hostResetWith_v (g : List Byte) (s : State) : (s.hostResetWith g).v = State.reset.v := rfl
@[simp] theorem State.hostResetWith_i (g : List Byte) (s : State) : (s.hostResetWith g).i = State.reset.i := rfl
@[simp] theorem State.hostResetWith_pc (g : List Byte) (s : State) : (s.hostResetWith g).pc = State.reset.pc := rfl
@[simp] theorem State.hostResetWith_stack (g : List Byte) (s : State) : (s.hostResetWith g).stack = State.reset.stack := rfl
@[simp] theorem State.hostResetWith_dt (g : List Byte) (s : State) : (s.hostResetWith g).dt = State.reset.dt := rfl
@[simp] theorem State.hostResetWith_st (g : List Byte) (s : State) : (s.hostResetWith g).st = State.reset.st := rfl
@[simp] theorem State.hostResetWith_fb (g : List Byte) (s : State) : (s.hostResetWith g).fb = State.reset.fb := rfl
@[simp] theorem State.hostResetWith_key (g : List Byte) (s : State) : (s.hostResetWith g).key = State.reset.key := rfl
@[simp] theorem State.hostResetWith_fault (g : List Byte) (s : State) : (s.hostResetWith g).fault = State.reset.fault := rfl
@[simp] theorem State.hostResetWith_mem (g : List Byte) (s : State) : (s.hostResetWith g).mem = Memory.seeded g := rfl
@[simp] theorem State.hostResetWith_draws (g : List Byte) (s : State) : (s.hostResetWith g).draws = s.draws := rfl
@[simp] theorem State.hostResetWith_getV (g : List Byte) (s : State) (r : Reg) : (s.hostResetWith g).getV r = State.reset.getV r := rfl

/-- `State.reset` is the reset state of the default `FONT`. -/
theorem State.resetWith_font : State.resetWith font = State.reset := by
  rw [State.resetWith, Memory.seeded_font]; rfl

/-- The host's reset leaves the reset state, but for the count of draws. -/
theorem State.hostReset_eq (s : State) : s.hostReset = { State.reset with draws := s.draws } := by
  rw [State.hostReset, State.hostResetWith, State.resetWith_font]

/-! The host's key setter. -/

@[simp] theorem State.setKey_v (s : State) (k : KeyIdx) (b : Bool) : (s.setKey k b).v = s.v := rfl
@[simp] theorem State.setKey_i (s : State) (k : KeyIdx) (b : Bool) : (s.setKey k b).i = s.i := rfl
@[simp] theorem State.setKey_pc (s : State) (k : KeyIdx) (b : Bool) : (s.setKey k b).pc = s.pc := rfl
@[simp] theorem State.setKey_stack (s : State) (k : KeyIdx) (b : Bool) : (s.setKey k b).stack = s.stack := rfl
@[simp] theorem State.setKey_dt (s : State) (k : KeyIdx) (b : Bool) : (s.setKey k b).dt = s.dt := rfl
@[simp] theorem State.setKey_st (s : State) (k : KeyIdx) (b : Bool) : (s.setKey k b).st = s.st := rfl
@[simp] theorem State.setKey_mem (s : State) (k : KeyIdx) (b : Bool) : (s.setKey k b).mem = s.mem := rfl
@[simp] theorem State.setKey_fb (s : State) (k : KeyIdx) (b : Bool) : (s.setKey k b).fb = s.fb := rfl
@[simp] theorem State.setKey_key (s : State) (k : KeyIdx) (b : Bool) : (s.setKey k b).key = s.key.set k b := rfl
@[simp] theorem State.setKey_fault (s : State) (k : KeyIdx) (b : Bool) : (s.setKey k b).fault = s.fault := rfl
@[simp] theorem State.setKey_draws (s : State) (k : KeyIdx) (b : Bool) : (s.setKey k b).draws = s.draws := rfl
@[simp] theorem State.setKey_getV (s : State) (k : KeyIdx) (b : Bool) (r : Reg) : (s.setKey k b).getV r = s.getV r := rfl

/-! The two writes of a flag-setting instruction. -/

@[simp] theorem State.setResultFlag_i (s : State) (x : Reg) (b : Byte) (c : Bool) :
    (s.setResultFlag x b c).i = s.i := by
  unfold State.setResultFlag; cases vfOrder <;> rfl

@[simp] theorem State.setResultFlag_pc (s : State) (x : Reg) (b : Byte) (c : Bool) :
    (s.setResultFlag x b c).pc = s.pc := by
  unfold State.setResultFlag; cases vfOrder <;> rfl

@[simp] theorem State.setResultFlag_stack (s : State) (x : Reg) (b : Byte) (c : Bool) :
    (s.setResultFlag x b c).stack = s.stack := by
  unfold State.setResultFlag; cases vfOrder <;> rfl

@[simp] theorem State.setResultFlag_dt (s : State) (x : Reg) (b : Byte) (c : Bool) :
    (s.setResultFlag x b c).dt = s.dt := by
  unfold State.setResultFlag; cases vfOrder <;> rfl

@[simp] theorem State.setResultFlag_st (s : State) (x : Reg) (b : Byte) (c : Bool) :
    (s.setResultFlag x b c).st = s.st := by
  unfold State.setResultFlag; cases vfOrder <;> rfl

@[simp] theorem State.setResultFlag_mem (s : State) (x : Reg) (b : Byte) (c : Bool) :
    (s.setResultFlag x b c).mem = s.mem := by
  unfold State.setResultFlag; cases vfOrder <;> rfl

@[simp] theorem State.setResultFlag_fb (s : State) (x : Reg) (b : Byte) (c : Bool) :
    (s.setResultFlag x b c).fb = s.fb := by
  unfold State.setResultFlag; cases vfOrder <;> rfl

@[simp] theorem State.setResultFlag_key (s : State) (x : Reg) (b : Byte) (c : Bool) :
    (s.setResultFlag x b c).key = s.key := by
  unfold State.setResultFlag; cases vfOrder <;> rfl

@[simp] theorem State.setResultFlag_fault (s : State) (x : Reg) (b : Byte) (c : Bool) :
    (s.setResultFlag x b c).fault = s.fault := by
  unfold State.setResultFlag; cases vfOrder <;> rfl

@[simp] theorem State.setResultFlag_draws (s : State) (x : Reg) (b : Byte) (c : Bool) :
    (s.setResultFlag x b c).draws = s.draws := by
  unfold State.setResultFlag; cases vfOrder <;> rfl

end Sys2Proof.Machine
end

