-- ==== Sys2Proof/Laws/Shared.lean ====
section
/-! SUPPORT. One lemma for each shared operation, saying everything it can do: arithmetic and flags, operand forms,
fetch, the end of a step, and the step itself. -/

namespace Sys2Proof.Machine

/-! Arithmetic and flags (41_alu.md). -/

@[simp] theorem toNat_sumByte (a b : Byte) : (sumByte a b).toNat = (a.toNat + b.toNat) % 256 := by
  simp [sumByte]

@[simp] theorem toNat_diffByte (a b : Byte) : (diffByte a b).toNat = (a.toNat + 256 - b.toNat) % 256 := by
  simp [diffByte]

@[simp] theorem toNat_shrByte (a : Byte) : (shrByte a).toNat = a.toNat / 2 := by
  have := a.isLt
  simp [shrByte]; omega

@[simp] theorem toNat_shlByte (a : Byte) : (shlByte a).toNat = a.toNat * 2 % 256 := by
  simp [shlByte]

theorem toNat_bitByte (c : Bool) : (bitByte c).toNat = if c then 1 else 0 := by
  cases c <;> rfl

/-- The registers after the two writes of a flag-setting instruction: the flag wins at VF (41_alu.md R121). -/
theorem State.setResultFlag_getV (s : State) (x : Reg) (b : Byte) (c : Bool) (r : Reg) :
    (s.setResultFlag x b c).getV r = if flagReg = r then bitByte c else if x = r then b else s.getV r := by
  simp only [State.setResultFlag, vfOrder, State.setResultFlagWith, State.setV_getV]

/-! Operand forms. -/

@[simp] theorem toNat_zext16 (nnn : Addr12) : (zext16 nnn).toNat = nnn.toNat := by
  have := nnn.isLt
  simp [zext16]; omega

/-- The target of `Bnnn` is the exact sum (40_control_flow.md R107). -/
@[simp] theorem toNat_offsetTarget (nnn : Addr12) (b : Byte) :
    (offsetTarget nnn b).toNat = nnn.toNat + b.toNat := by
  have := nnn.isLt
  have := b.isLt
  simp [offsetTarget]; omega

@[simp] theorem toNat_indexSum (i : Word) (b : Byte) : (indexSum i b).toNat = (i.toNat + b.toNat) % 65536 := by
  simp [indexSum]

/-- The glyph address is the exact product (44_index_memory.md R192). -/
@[simp] theorem toNat_glyphAddr (b : Byte) : (glyphAddr b).toNat = b.toNat * 5 := by
  have := b.isLt
  simp [glyphAddr]; omega

@[simp] theorem length_bcdDigits (b : Byte) : (bcdDigits b).length = 3 := rfl

@[simp] theorem length_regBlock (s : State) (x : Reg) : (regBlock s x).length = x.val + 1 := by
  have := x.isLt
  simp [regBlock]

/-- Byte `k` of the stored block is V[k] (44_index_memory.md R194). -/
theorem getElem_regBlock (s : State) (x : Reg) (k : Nat) (h : k < (regBlock s x).length) :
    (regBlock s x)[k] = s.getV ⟨k, by simp at h; omega⟩ := by
  simp [regBlock, State.getV]

/-- Register `r` after a block load: byte `r` where the block reaches it, else its old value
(44_index_memory.md R195). -/
theorem getElem_loadBlock (v : Vector Byte 16) (bs : List Byte) (r : Reg) :
    (loadBlock v bs)[r] = if h : r.val < bs.length then bs[r.val] else v[r] := by
  simp only [loadBlock, Fin.getElem_fin, Vector.getElem_ofFn, List.getD_eq_getElem?_getD]
  split <;> simp_all

/-- A register value names a key exactly below 16 (43_keys_timers.md R171). -/
theorem keyOf_eq_some_iff (b : Byte) (k : KeyIdx) : keyOf b = some k ↔ b.toNat = k.val := by
  have := k.isLt
  simp only [keyOf]
  split
  · simp [Fin.ext_iff]
  · simp; omega

theorem keyOf_eq_none_iff (b : Byte) : keyOf b = none ↔ 16 ≤ b.toNat := by
  unfold keyOf
  split <;> simp <;> omega

/-- `first_pressed` finds none exactly when no key is pressed (43_keys_timers.md R172). -/
theorem firstPressed_eq_none_iff (key : Vector Bool 16) : firstPressed key = none ↔ ∀ k : KeyIdx, key[k] = false := by
  simp [firstPressed]

/-! Fetch. -/

/-- The fetch answers the big-endian word exactly where both bytes lie in memory (20_memory.md R55). -/
theorem fetchWord_ok_iff (s : State) (w : Word) :
    fetchWord s = .ok w ↔ s.pc.toNat + 2 ≤ 4096 ∧
      w = wordOfBytes (Memory.read s.mem s.pc.toNat) (Memory.read s.mem (s.pc.toNat + 1)) := by
  unfold fetchWord
  split
  · rename_i e h
    obtain ⟨h1, -⟩ := (memRead_error_iff _ _ _ _ _).mp h
    simp only [reduceCtorEq, false_iff, not_and]; omega
  · rename_i bs h
    obtain ⟨h1, rfl⟩ := (memRead_ok_iff _ _ _ _ _).mp h
    simp only [Memory.readBytes, h1, true_and, Except.ok.injEq, eq_comm]
    rfl

/-- The fetch faults exactly where the word leaves memory (60_exceptions.md R211). -/
theorem fetchWord_error_iff (s : State) (f : Fault) :
    fetchWord s = .error f ↔ s.pc.toNat ≥ 4095 ∧ f = .address s.pc.toNat 2 .fetch := by
  unfold fetchWord
  split
  · rename_i e h
    obtain ⟨h1, rfl⟩ := (memRead_error_iff _ _ _ _ _).mp h
    simp only [Except.error.injEq, eq_comm, show s.pc.toNat ≥ 4095 by omega, true_and]
  · rename_i bs h
    obtain ⟨h1, -⟩ := (memRead_ok_iff _ _ _ _ _).mp h
    simp; omega

theorem fetchedWord_of_ok {s : State} {w : Word} (h : fetchWord s = .ok w) : fetchedWord s = some w := by
  simp [fetchedWord, h]

theorem fetchedWord_of_error {s : State} {f : Fault} (h : fetchWord s = .error f) : fetchedWord s = none := by
  simp [fetchedWord, h]

/-! The timers and the end of a step. -/

/-- One tick takes one off a timer, and nothing off a timer at 0 (43_keys_timers.md R173). -/
@[simp] theorem toNat_countDown (b : Byte) : (countDown b).toNat = b.toNat - 1 := by
  unfold countDown
  split
  · simp_all
  · rename_i h
    have hb : b.toNat ≠ 0 := fun h0 => h (BitVec.eq_of_toNat_eq (by simpa using h0))
    have := b.isLt
    simp [BitVec.toNat_sub]; omega

/-- A retired step answers next only from a next state: ticked if it has no fault, as it is if it has one. -/
theorem retire_eq_next_iff (o : Result) (t : State) :
    retire o = .next t ↔ ∃ u, o = .next u ∧ t = if u.fault = none then u.tick else u := by
  cases o <;> simp [retire, eq_comm]

/-! The step (30_encoding.md R73). -/

/-- Everything a step can do. -/
theorem step_eq_next_iff (s t : State) :
    step s = .next t ↔
      (s.fault ≠ none ∧ t = s) ∨
      (s.fault = none ∧ ∃ f, fetchWord s = .error f ∧ t = s.raiseWith none f) ∨
      (s.fault = none ∧ ∃ w e, fetchWord s = .ok w ∧ decodeWord w = .error e ∧ t = s.raiseWith (some w) .decode) ∨
      (s.fault = none ∧ ∃ w i u, fetchWord s = .ok w ∧ decodeWord w = .ok i ∧ exec i s = .next u ∧
        t = if u.fault = none then u.tick else u) := by
  unfold step
  cases hf : s.fault with
  | some r => simp [eq_comm]
  | none =>
    cases hw : fetchWord s with
    | error f => simp [eq_comm]
    | ok w =>
      cases hd : decodeWord w with
      | error e => simp [hd, eq_comm]
      | ok i => simp [hd, retire_eq_next_iff]

end Sys2Proof.Machine
end

