-- ==== Sys2Proof/Tests/Slice0.lean ====
section
/-! SUPPORT. Tests: decoding of words written out from the formats, the WellFormed smoke test, vectors of
95_test_vectors.md (named in each comment), and for every statement with hypotheses a state that meets them. -/

namespace Sys2Proof.Tests

open Sys2Proof.Machine

/-! WellFormed: the one check is `HAS_FX18`. -/

theorem test_wellFormed_accepts : (Instr.ldStVx 3).wellFormed = true ∧ (Instr.drw 15 15 15).wellFormed = true := by
  decide

/-- K18: without `HAS_FX18` the instruction is ill-formed and its word illegal. -/
theorem test_wellFormed_refuses_fx18 :
    (Instr.ldStVx 0).wellFormedWith false = false ∧
    decodeWordWith false 0xF018#16 = .error (.miscFamily 0xF018#16) := by
  decide

/-! Decoding: one word per constructor, written out from its format in spec/opcode_table.json. -/

theorem test_decode_control :
    decodeWord 0b0000000011100000#16 = .ok .cls ∧ decodeWord 0b0000000011101110#16 = .ok .ret ∧
    decodeWord 0b0001101010111100#16 = .ok (.jp 0xABC#12) ∧ decodeWord 0b0010001100000001#16 = .ok (.call 0x301#12) ∧
    decodeWord 0b1011111111111111#16 = .ok (.jpV0 0xFFF#12) := by
  decide

theorem test_decode_skips :
    decodeWord 0b0011000101000010#16 = .ok (.seImm 1 0x42#8) ∧
    decodeWord 0b0100111101000010#16 = .ok (.sneImm 15 0x42#8) ∧
    decodeWord 0b0101000100100000#16 = .ok (.seReg 1 2) ∧ decodeWord 0b1001000100100000#16 = .ok (.sneReg 1 2) ∧
    decodeWord 0b1110001010011110#16 = .ok (.skp 2) ∧ decodeWord 0b1110001010100001#16 = .ok (.sknp 2) := by
  decide

theorem test_decode_alu :
    decodeWord 0b0110101001000010#16 = .ok (.ldImm 10 0x42#8) ∧
    decodeWord 0b0111101011111111#16 = .ok (.addImm 10 0xFF#8) ∧
    decodeWord 0b1000000100100000#16 = .ok (.ldReg 1 2) ∧ decodeWord 0b1000000100100001#16 = .ok (.or 1 2) ∧
    decodeWord 0b1000000100100010#16 = .ok (.and 1 2) ∧ decodeWord 0b1000000100100011#16 = .ok (.xor 1 2) ∧
    decodeWord 0b1000000100100100#16 = .ok (.addReg 1 2) ∧ decodeWord 0b1000000100100101#16 = .ok (.sub 1 2) := by
  decide

theorem test_decode_shifts_random :
    decodeWord 0b1000000111100110#16 = .ok (.shr 1 14) ∧ decodeWord 0b1000000100100111#16 = .ok (.subn 1 2) ∧
    decodeWord 0b1000111111111110#16 = .ok (.shl 15 15) ∧ decodeWord 0b1100001100001111#16 = .ok (.rnd 3 0x0F#8) := by
  decide

theorem test_decode_display_index :
    decodeWord 0b1101000000010101#16 = .ok (.drw 0 1 5) ∧ decodeWord 0b1010001100000000#16 = .ok (.ldI 0x300#12) ∧
    decodeWord 0b1111000100011110#16 = .ok (.addI 1) ∧ decodeWord 0b1111000000101001#16 = .ok (.ldF 0) ∧
    decodeWord 0b1111000000110011#16 = .ok (.ldB 0) ∧ decodeWord 0b1111000101010101#16 = .ok (.ldMemV 1) ∧
    decodeWord 0b1111001001100101#16 = .ok (.ldVMem 2) := by
  decide

theorem test_decode_timers :
    decodeWord 0b1111001100000111#16 = .ok (.ldVxDt 3) ∧ decodeWord 0b1111010100001010#16 = .ok (.ldVxK 5) ∧
    decodeWord 0b1111010000010101#16 = .ok (.ldDtVx 4) ∧ decodeWord 0b1111000000011000#16 = .ok (.ldStVx 0) := by
  decide

/-- F1 to F10, one word for each family of R77, and the edges of their ranges. -/
theorem test_decode_illegal :
    decodeWord 0x0000#16 = .error (.zeroFamily 0x0000#16) ∧ decodeWord 0x00E1#16 = .error (.zeroFamily 0x00E1#16) ∧
    decodeWord 0x5121#16 = .error (.fiveFamily 0x5121#16) ∧ decodeWord 0x8128#16 = .error (.eightFamily 0x8128#16) ∧
    decodeWord 0x812F#16 = .error (.eightFamily 0x812F#16) ∧ decodeWord 0x9121#16 = .error (.nineFamily 0x9121#16) ∧
    decodeWord 0xE19F#16 = .error (.keyFamily 0xE19F#16) ∧ decodeWord 0xF100#16 = .error (.miscFamily 0xF100#16) ∧
    decodeWord 0xF1FF#16 = .error (.miscFamily 0xF1FF#16) ∧ decodeBytes [0x60#8] = .error (.tooShort 1) := by
  decide

/-- The table's numbering: the word's own bits, high byte first in memory (R55). -/
theorem test_decode_table_word : decodeTableWord 16 0x8124 = some (.addReg 1 2) ∧ decodeTableWord 16 0x0123 = none := by
  decide

/-! Vectors. The start is the reset state with the word at the pc. -/

/-- The word under test at the pc. -/
def put (w : Nat) (s : State) : State := s.withFetchWord 16 w

/-- The state after one step. -/
def after (s : State) : State :=
  match step s with
  | .next t => t
  | .fault _ => s
  | .refused _ => s

/-- A reset state with some registers set. -/
def regs (l : List (Reg × Byte)) : State := l.foldl (fun s p => s.setV p.1 p.2) State.reset

/-- A state with bytes stored at an address. -/
def bytesAt (a : Nat) (bs : List Byte) (s : State) : State := { s with mem := Memory.writeBytes s.mem a bs }

/-- C1, C2. -/
theorem test_ret : (let t := after (put 0x00EE { State.reset with pc := 0x300#16, stack := [0x210#16, 0x402#16] });
    t.pc = 0x402#16 ∧ t.stack = [0x210#16]) := by decide

/-- F11, F15: a faulting step records and ticks nothing. -/
theorem test_ret_underflow : (let t := after (put 0x00EE { State.reset with dt := 5#8 });
    t.fault = some { cause := .stackUnderflow, pc := 0x200#16, word := some 0x00EE#16 } ∧ t.dt = 5#8 ∧
    t.pc = 0x200#16) := by decide

/-- C3, C18. -/
theorem test_jp : (after (put 0x1ABC State.reset)).pc = 0xABC#16 ∧
    (let t := after (put 0x1201 { State.reset with dt := 5#8, st := 1#8 });
      t.pc = 0x201#16 ∧ t.dt = 4#8 ∧ t.st = 0#8) := by decide

/-- C6. -/
theorem test_call : (let t := after (put 0x2FFE { State.reset with pc := 0xFFC#16 });
    t.pc = 0xFFE#16 ∧ t.stack = [0xFFE#16]) := by decide

/-- C7 to C10. -/
theorem test_skip_imm : (after (put 0x3142 (regs [(1, 0x42#8)]))).pc = 0x204#16 ∧
    (after (put 0x3142 (regs [(1, 0x41#8)]))).pc = 0x202#16 ∧
    (after (put 0x4142 (regs [(1, 0x41#8)]))).pc = 0x204#16 ∧
    (after (put 0x4142 (regs [(1, 0x42#8)]))).pc = 0x202#16 := by decide

/-- C11 to C14. -/
theorem test_skip_reg : (after (put 0x5120 (regs [(1, 7#8), (2, 7#8)]))).pc = 0x204#16 ∧
    (after (put 0x5120 (regs [(1, 7#8), (2, 8#8)]))).pc = 0x202#16 ∧
    (after (put 0x9120 (regs [(1, 7#8), (2, 8#8)]))).pc = 0x204#16 ∧
    (after (put 0x9120 (regs [(1, 7#8), (2, 7#8)]))).pc = 0x202#16 := by decide

/-- C16: the target is not wrapped, and the next fetch faults. -/
theorem test_jpV0 : (let t := after (put 0xBFFF (regs [(0, 0xFF#8)])); t.pc = 0x10FE#16 ∧
    (after t).fault = some { cause := .address 0x10FE 2 .fetch, pc := 0x10FE#16, word := none }) := by decide

/-- C17: a taken skip at the top of memory does not decode the skipped word. -/
theorem test_skip_at_top : (let t := after (put 0x3000 { State.reset with pc := 0xFFC#16 });
    t.pc = 0x1000#16 ∧ t.fault = none) := by decide

/-- A1, A2, A3. -/
theorem test_ldImm_addImm : (after (put 0x6A42 State.reset)).getV 10 = 0x42#8 ∧
    (let t := after (put 0x7AFF (regs [(10, 2#8)])); t.getV 10 = 1#8 ∧ t.getV 15 = 0#8) ∧
    (after (put 0x7F01 (regs [(15, 0xFF#8)]))).getV 15 = 0#8 := by decide

/-- A4 to A7. -/
theorem test_logic : (after (put 0x8120 (regs [(1, 7#8), (2, 9#8)]))).getV 1 = 9#8 ∧
    (after (put 0x8121 (regs [(1, 0xF0#8), (2, 0x0F#8), (15, 1#8)]))).getV 1 = 0xFF#8 ∧
    (let t := after (put 0x8122 (regs [(1, 0xF0#8), (2, 0x3C#8), (15, 1#8)])); t.getV 1 = 0x30#8 ∧ t.getV 15 = 1#8) ∧
    (after (put 0x8123 (regs [(1, 0xFF#8), (2, 0x0F#8), (15, 1#8)]))).getV 1 = 0xF0#8 := by decide

/-- A8, A10, A11. -/
theorem test_addReg : (let t := after (put 0x8124 (regs [(1, 0xFF#8), (2, 1#8)])); t.getV 1 = 0#8 ∧ t.getV 15 = 1#8) ∧
    (after (put 0x8F24 (regs [(15, 0x10#8), (2, 0xF5#8)]))).getV 15 = 1#8 ∧
    (let t := after (put 0x81F4 (regs [(1, 1#8), (15, 0xFF#8)])); t.getV 1 = 0#8 ∧ t.getV 15 = 1#8) := by decide

/-- A12, A13, A15. -/
theorem test_sub : (let t := after (put 0x8125 (regs [(1, 5#8), (2, 5#8)])); t.getV 1 = 0#8 ∧ t.getV 15 = 0#8) ∧
    (let t := after (put 0x8125 (regs [(1, 3#8), (2, 5#8)])); t.getV 1 = 0xFE#8 ∧ t.getV 15 = 0#8) ∧
    (after (put 0x8F25 (regs [(15, 9#8), (2, 3#8)]))).getV 15 = 1#8 := by decide

/-- A19, A20. -/
theorem test_subn : (let t := after (put 0x8127 (regs [(1, 3#8), (2, 5#8)])); t.getV 1 = 2#8 ∧ t.getV 15 = 1#8) ∧
    (let t := after (put 0x8127 (regs [(1, 5#8), (2, 3#8)])); t.getV 1 = 0xFE#8 ∧ t.getV 15 = 0#8) := by decide

/-- A16, A17, A18. -/
theorem test_shr : (let t := after (put 0x8106 (regs [(1, 0x81#8)])); t.getV 1 = 0x40#8 ∧ t.getV 15 = 1#8) ∧
    (let t := after (put 0x81E6 (regs [(1, 2#8), (14, 0xFF#8)])); t.getV 1 = 1#8 ∧ t.getV 15 = 0#8) ∧
    (after (put 0x8F06 (regs [(15, 3#8)]))).getV 15 = 1#8 := by decide

/-- A22, A23, A24. -/
theorem test_shl : (let t := after (put 0x810E (regs [(1, 0x81#8)])); t.getV 1 = 2#8 ∧ t.getV 15 = 1#8) ∧
    (let t := after (put 0x810E (regs [(1, 0x40#8)])); t.getV 1 = 0x80#8 ∧ t.getV 15 = 0#8) ∧
    (after (put 0x8FFE (regs [(15, 0x80#8)]))).getV 15 = 1#8 := by decide

/-- A10, A15, A24 with `VF_ORDER = result_last`: the named alternative. -/
theorem test_result_last : ((regs [(15, 0x10#8)]).setResultFlagWith .resultLast 15 0x05#8 true).getV 15 = 0x05#8 ∧
    ((regs [(15, 0x10#8)]).setResultFlagWith .resultLast 1 0x05#8 true).getV 15 = 1#8 := by decide

/-- A26, A27, A28, with the draw given. -/
theorem test_rnd : (State.reset.rndWith 0xAB#8 3 0x0F#8).getV 3 = 0x0B#8 ∧
    ((regs [(3, 9#8)]).rndWith 0xFF#8 3 0x00#8).getV 3 = 0#8 ∧ (State.reset.rndWith 0x5A#8 3 0xFF#8).getV 3 = 0x5A#8 ∧
    (State.reset.rndWith 0x5A#8 3 0xFF#8).pc = 0x202#16 := by decide

/-- D1. -/
theorem test_cls : (let t := after (put 0x00E0 { State.reset with fb := xorCell blankFb 31 63 true });
    t.fb[31][63] = false ∧ t.pc = 0x202#16) := by decide

/-- D3, D4: an erased pixel sets VF; bit 6 at x = 63 wraps to column 0. -/
theorem test_drw_collision_wrap :
    (let t := after (put 0xD011 (bytesAt 0x300 [0x80#8] { State.reset with i := 0x300#16, fb := xorCell blankFb 0 0 true }));
      t.fb[0][0] = false ∧ t.getV 15 = 1#8) ∧
    (let t := after (put 0xD011 (bytesAt 0x300 [0x40#8] { regs [(0, 63#8)] with i := 0x300#16 }));
      t.fb[0][0] = true ∧ t.fb[0][63] = false ∧ t.getV 15 = 0#8) := by decide

/-- D6, D11: rows wrap; a sprite past the end of memory faults with nothing drawn. -/
theorem test_drw_rows_fault :
    (let t := after (put 0xD012 (bytesAt 0x300 [0x80#8, 0x80#8] { regs [(1, 31#8)] with i := 0x300#16 }));
      t.fb[31][0] = true ∧ t.fb[0][0] = true) ∧
    (after (put 0xD012 { State.reset with i := 0xFFF#16 })).fault =
      some { cause := .address 0xFFF 2 .read, pc := 0x200#16, word := some 0xD012#16 } := by decide

/-- K1, K4, K5. -/
theorem test_skp : (after (put 0xE29E ((regs [(2, 7#8)]).setKey 7 true))).pc = 0x204#16 ∧
    (after (put 0xE29E (regs [(2, 7#8)]))).pc = 0x202#16 ∧
    (after (put 0xE29E (regs [(2, 16#8)]))).fault =
      some { cause := .keyIndex 16#8, pc := 0x200#16, word := some 0xE29E#16 } := by decide

/-- K3, K4, K6, K7. -/
theorem test_sknp : (after (put 0xE2A1 (regs [(2, 7#8)]))).pc = 0x204#16 ∧
    (after (put 0xE2A1 ((regs [(2, 7#8)]).setKey 7 true))).pc = 0x202#16 ∧
    (after (put 0xE2A1 (regs [(2, 0xFF#8)]))).fault.map FaultRecord.cause = some (.keyIndex 255#8) ∧
    (after (put 0xE0A1 (regs [(0, 15#8)]))).pc = 0x204#16 := by decide

/-- K8. -/
theorem test_ldVxDt : (let t := after (put 0xF307 { State.reset with dt := 10#8 });
    t.getV 3 = 10#8 ∧ t.dt = 9#8 ∧ t.pc = 0x202#16) := by decide

/-- K11, K12, K13. -/
theorem test_ldVxK : (after (put 0xF50A ((State.reset.setKey 3 true).setKey 9 true))).getV 5 = 3#8 ∧
    (let t := after (put 0xF50A { State.reset with dt := 3#8, st := 1#8 }); t.pc = 0x200#16 ∧ t.dt = 2#8 ∧ t.st = 0#8) ∧
    (after (put 0xFF0A ((regs [(15, 1#8)]).setKey 15 true))).getV 15 = 0x0F#8 := by decide

/-- K14, K16, K17. -/
theorem test_set_timers : (after (put 0xF415 (regs [(4, 0x3C#8)]))).dt = 0x3B#8 ∧
    (after (put 0xF415 { regs [(4, 1#8)] with dt := 9#8 })).dt = 0#8 ∧
    (after (put 0xF018 (regs [(0, 3#8)]))).st = 2#8 := by decide

/-- I2, I4, I5, I8, I9. -/
theorem test_index : (after (put 0xAFFF State.reset)).i = 0xFFF#16 ∧
    (after (put 0xF11E { regs [(1, 2#8)] with i := 0xFFFF#16 })).i = 1#16 ∧
    (after (put 0xF11E { regs [(1, 1#8)] with i := 0xFFF#16 })).i = 0x1000#16 ∧
    (after (put 0xF029 (regs [(0, 0x10#8)]))).i = 0x50#16 ∧ (after (put 0xF029 (regs [(0, 0xFF#8)]))).i = 0x4FB#16 := by
  decide

/-- I13, I14. -/
theorem test_ldB : (Memory.readBytes (after (put 0xF033 { regs [(0, 123#8)] with i := 0xFFD#16 })).mem 0xFFD 3 =
      [1#8, 2#8, 3#8]) ∧
    (let t := after (put 0xF033 { regs [(0, 123#8)] with i := 0xFFE#16 });
      t.fault.map FaultRecord.cause = some (.address 0xFFE 3 .write) ∧ Memory.read t.mem 0xFFE = 0#8) := by decide

/-- I15, I17. -/
theorem test_ldMemV : (let t := after (put 0xF155 { regs [(0, 1#8), (1, 2#8)] with i := 0x300#16 });
      Memory.readBytes t.mem 0x300 3 = [1#8, 2#8, 0#8] ∧ t.i = 0x300#16) ∧
    (after (put 0xFF55 { State.reset with i := 0xFF1#16 })).fault.map FaultRecord.cause =
      some (.address 0xFF1 16 .write) := by decide

/-- I18, I19, I20. -/
theorem test_ldVMem : (let t := after (put 0xF265 (bytesAt 0x300 [2#8, 5#8, 4#8] { regs [(3, 9#8)] with i := 0x300#16 }));
      t.getV 0 = 2#8 ∧ t.getV 2 = 4#8 ∧ t.getV 3 = 9#8 ∧ t.i = 0x300#16) ∧
    (after (put 0xF065 (bytesAt 0xFFF [0x77#8] { State.reset with i := 0xFFF#16 }))).getV 0 = 0x77#8 ∧
    (after (put 0xF165 { State.reset with i := 0xFFF#16 })).fault.map FaultRecord.cause =
      some (.address 0xFFF 2 .read) := by decide

/-- F1, R6: from reset with nothing placed the first step records a `DecodeFault`. -/
theorem test_reset_first_step : (after State.reset).fault =
    some { cause := .decode, pc := 0x200#16, word := some 0#16 } := by decide

/-- The default `FONT` of 70_reset_and_hazards.md R242, glyphs 0, 8 and B. -/
theorem test_font : Memory.readBytes State.reset.mem 0x00 5 = [0xF0#8, 0x90#8, 0x90#8, 0x90#8, 0xF0#8] ∧
    Memory.readBytes State.reset.mem 0x28 5 = [0xF0#8, 0x90#8, 0xF0#8, 0x90#8, 0xF0#8] ∧
    Memory.readBytes State.reset.mem 0x37 5 = [0xE0#8, 0x90#8, 0xE0#8, 0x90#8, 0xE0#8] := by decide

/-- A `FONT` whose first byte is another (R242, D15): memory lists that byte, and the rest reads as before. -/
theorem test_other_font : (State.resetWith (font.set 0 0x3C#8)).mem = [(0, 0x3C#8)] ∧
    Memory.readBytes (State.reset.loadRomWith (font.set 0 0x3C#8) [0x12#8]).mem 0 3 = [0x3C#8, 0x90#8, 0x90#8] := by
  decide

/-- R2, R7, D20: a ROM load resets the rest. -/
theorem test_loadRom : (let t := ((regs [(1, 7#8)]).setKey 3 true).loadRom [0x12#8, 0x00#8];
    Memory.readBytes t.mem 0x200 3 = [0x12#8, 0#8, 0#8] ∧ Memory.readBytes t.mem 0x4B 5 = [0xF0#8, 0x80#8, 0xF0#8, 0x80#8, 0x80#8] ∧
    t.getV 1 = 0#8 ∧ t.key[3] = false ∧ t.fault = none) := by decide

/-! Witnesses: for every statement with hypotheses, a state and operands that meet them, each clause at an edge. -/

/-- A halted core: reset, then the `DecodeFault` of its first step. -/
def halted : State := after State.reset

/-- The word under test at the pc is fetched and decodes to the instruction. -/
theorem fetches_jp : FetchesInstr (put 0x1200 State.reset) (.jp 0x200#12) := ⟨rfl, 0x1200#16, by decide, by decide⟩

theorem fetches_ret : FetchesInstr (put 0x00EE State.reset) .ret := ⟨rfl, 0x00EE#16, by decide, by decide⟩

theorem witness_DecodeOfEncodeIsInstr : (Instr.ldStVx 15).wellFormed = true := by decide

theorem witness_EncodeOfDecodeIsWord : decodeWord 0xDFFF#16 = .ok (.drw 15 15 15) := by decide

theorem witness_StepRunsDecodedInstruction :
    FetchesInstr (put 0x1200 State.reset) (.jp 0x200#12) ∧
    ∃ u, exec (.jp 0x200#12) (put 0x1200 State.reset) = .next u :=
  ⟨fetches_jp, _, rfl⟩

theorem witness_FetchIsBigEndian :
    ({ State.reset with pc := 4094#16 } : State).pc.toNat + 2 ≤ 4096 ∧
    ({ State.reset with pc := 1#16 } : State).pc.toNat + 2 ≤ 4096 := by decide

theorem witness_FetchFaultIsRecorded :
    ({ State.reset with pc := 4095#16 } : State).fault = none ∧
    ({ State.reset with pc := 4095#16 } : State).pc.toNat ≥ 4095 := by decide

theorem witness_DecodeFaultIsRecorded : State.reset.fault = none ∧ fetchWord State.reset = .ok 0#16 ∧
    decodeWord 0#16 = .error (.zeroFamily 0#16) := by decide

theorem witness_HaltedCoreIsAbsorbing : halted.fault ≠ none := by decide

theorem witness_FaultingStepChangesOnlyFault : State.reset.fault = none ∧ step State.reset = .next halted ∧
    halted.fault = some { cause := .decode, pc := 0x200#16, word := some 0#16 } :=
  ⟨rfl, rfl, by decide⟩

theorem witness_StepRaisesExactlyTheDueFault : State.reset.fault = none ∧ ∃ t, step State.reset = .next t :=
  ⟨rfl, halted, rfl⟩

theorem witness_PcAdvanceIsExact : ({ State.reset with pc := 4094#16 } : State).pc.toNat + 2 ≤ 4096 ∧
    ({ State.reset with pc := 4095#16 } : State).pc.toNat > 4094 := by decide

/-- An instruction that cannot fault, a skip that does not, and the key wait. -/
theorem witness_EveryInstructionAdvancesPc :
    (ownFault .cls State.reset = none ∧ ∃ t, exec .cls State.reset = .next t) ∧
    (ownFault (.skp 0) State.reset = none ∧ ∃ t, exec (.skp 0) State.reset = .next t) ∧
    (ownFault (.ldVxK 0) State.reset = none ∧ ∃ t, exec (.ldVxK 0) State.reset = .next t) :=
  ⟨⟨rfl, _, rfl⟩, ⟨rfl, _, rfl⟩, rfl, _, rfl⟩

theorem witness_OnlyListedPartsAreWritten : ∃ t, exec (.ldMemV 15) State.reset = .next t := ⟨_, rfl⟩

theorem witness_KeysAreMutatedOnlyByTheHost : ∃ t, step (put 0xE09E State.reset) = .next t := ⟨_, rfl⟩

theorem reset_inv : State.reset.Inv :=
  ⟨Memory.reset_wf, by decide, by simp [State.reset], by simp [State.reset]⟩

theorem witness_StepKeepsInv : State.reset.Inv ∧ ∃ t, step State.reset = .next t := ⟨reset_inv, halted, rfl⟩

theorem witness_HostOperationsKeepInv : State.reset.Inv := reset_inv

/-- An instruction that completes, one that faults, and a halted core. -/
theorem witness_TickEndsEveryExecutedStep :
    (FetchesInstr (put 0x1200 State.reset) (.jp 0x200#12) ∧
      ∃ u, exec (.jp 0x200#12) (put 0x1200 State.reset) = .next u ∧ u.fault = none) ∧
    (FetchesInstr (put 0x00EE State.reset) .ret ∧ ∃ u, exec .ret (put 0x00EE State.reset) = .next u ∧ u.fault ≠ none) ∧
    halted.fault ≠ none ∧ step halted = .next halted :=
  ⟨⟨fetches_jp, _, rfl, rfl⟩, ⟨fetches_ret, _, rfl, by decide⟩, by decide, rfl⟩

theorem witness_TimersFallUnlessSet : FetchesInstr (put 0x1200 State.reset) (.jp 0x200#12) ∧
    ∃ t, step (put 0x1200 State.reset) = .next t ∧ t.fault = none :=
  ⟨fetches_jp, _, rfl, rfl⟩

theorem witness_SpinStateOnlyTicks : FetchesInstr (put 0x1200 State.reset) (.jp 0x200#12) ∧
    (put 0x1200 State.reset).pc.toNat = (0x200#12).toNat :=
  ⟨fetches_jp, by decide⟩

theorem witness_RomLoadResetsAndWrites :
    (List.replicate 3584 (0#8 : Byte)).length ≤ 3584 ∧ (List.replicate 3585 (0#8 : Byte)).length > 3584 :=
  ⟨Nat.le_of_eq List.length_replicate, Nat.lt_of_lt_of_eq (Nat.lt_succ_self 3584) List.length_replicate.symm⟩

theorem witness_PlacedWordIsFetchedNext : Memory.wf State.reset.mem ∧ 65535 < 65536 :=
  ⟨Memory.reset_wf, by decide⟩

theorem witness_MemReadAnswersRangeOrFaults : 0xFFE + 2 ≤ 4096 ∧ 0x1000 + 0 ≤ 4096 ∧ 0xFFF + 2 > 4096 ∧ 0x1001 + 0 > 4096 := by
  decide

theorem witness_MemWriteIsReadBack : Memory.wf State.reset.mem ∧ 0xFFD + [1#8, 2#8, 3#8].length ≤ 4096 ∧
    0xFFE + [1#8, 2#8, 3#8].length > 4096 :=
  ⟨Memory.reset_wf, by decide, by decide⟩

/-- The least `x`, and the last two of sixteen registers stored at the top of memory. -/
theorem witness_StoredCodeIsFetched :
    (Memory.wf ({ State.reset with i := 0x202#16 } : State).mem ∧ State.reset.pc.toNat + 2 = 0x202 + (0 : Reg).val ∧
      dataAddr { State.reset with i := 0x202#16 } = 0x202 ∧ (1 : Reg).val = (0 : Reg).val + 1 ∧ (1 : Reg) ≤ 1) ∧
    dataAddr { State.reset with i := 0xFF0#16, pc := 0xFFC#16 } + ((15 : Reg).val + 1) ≤ 4096 ∧
    (0xFFC#16 : Word).toNat + 2 = 0xFF0 + (14 : Reg).val ∧ (15 : Reg).val = (14 : Reg).val + 1 ∧ (15 : Reg) ≤ 15 :=
  ⟨⟨Memory.reset_wf, by decide, by decide, by decide, by decide⟩, by decide, by decide, by decide, by decide⟩

theorem witness_ResetTakesAnyFont : (List.replicate 80 (0xAA#8 : Byte)).length = 80 ∧ font.length = 80 :=
  ⟨List.length_replicate, rfl⟩

theorem witness_RetPopsTopOrUnderflows :
    ({ State.reset with stack := [0x210#16, 0x402#16] } : State).stack = [0x210#16] ++ [0x402#16] ∧
    State.reset.stack = [] := by decide

theorem witness_AddRegSetsCarryLast : (14 : Reg) ≠ flagReg := by decide

theorem witness_SubWrapsWithStrictFlag : (0 : Reg) ≠ flagReg := by decide

theorem witness_SubnReversesSub : (1 : Reg) ≠ flagReg := by decide

theorem witness_ShiftsMoveVxByOne : (14 : Reg) ≠ flagReg := by decide

/-- Every clause of the laws: a sum, both sides of the subtraction, both shifts. -/
theorem witness_CarryAndShiftLaws : (1 : Reg) ≠ flagReg ∧ (∃ t, exec (.addReg 1 2) State.reset = .next t) ∧
    (∃ t, exec (.sub 1 2) State.reset = .next t) ∧ (∃ t, exec (.shr 1 2) State.reset = .next t) ∧
    (∃ t, exec (.shl 1 2) State.reset = .next t) ∧ (State.reset.getV 1).toNat ≥ (State.reset.getV 2).toNat ∧
    ((regs [(2, 1#8)]).getV 1).toNat < ((regs [(2, 1#8)]).getV 2).toNat :=
  ⟨by decide, ⟨_, rfl⟩, ⟨_, rfl⟩, ⟨_, rfl⟩, ⟨_, rfl⟩, by decide, by decide⟩

theorem witness_ResetLeavesListedValues : 15 < 16 ∧ 4 < 5 ∧ 0x50 ≤ 4095 ∧ 4095 < 4096 := by decide

/-- A bit outside kk. -/
theorem witness_RndMasksOneDraw : (0x0F#8 : Byte).getLsbD 4 = false := by decide

/-- D12, D13, D14: both sides of the range, a covered and an uncovered cell. -/
theorem witness_DrwTogglesCoveredCells :
    ({ State.reset with i := 0xFFF#16 } : State).i.toNat + (1 : Count).val ≤ 4096 ∧
    ({ State.reset with i := 0x1000#16 } : State).i.toNat + (0 : Count).val ≤ 4096 ∧
    ({ State.reset with i := 0x1001#16 } : State).i.toNat + (0 : Count).val > 4096 ∧
    SpriteCovers State.reset.mem 0 63 31 1 31 63 ∧ ¬ SpriteCovers State.reset.mem 0 63 31 0 31 63 :=
  ⟨by decide, by decide, by decide, ⟨0, 0, by decide, by decide, by decide, by decide, by decide⟩,
    fun ⟨_, _, h, _⟩ => absurd h (by simp)⟩

theorem witness_DrawingTwiceRestores : (List.replicate 15 (0xFF#8 : Byte)).length ≤ 15 := by decide

theorem witness_KeySkipsTestTheNamedKey : ((regs [(0, 15#8)]).getV 0).toNat = (15 : KeyIdx).val ∧
    ((regs [(0, 16#8)]).getV 0).toNat ≥ 16 := by decide

theorem witness_LdVxDtReadsBeforeTick : FetchesInstr (put 0xF307 State.reset) (.ldVxDt 3) :=
  ⟨rfl, 0xF307#16, by decide, by decide⟩

theorem witness_LdVxKTakesLowestOrWaits :
    (((State.reset.setKey 15 true).key[(15 : KeyIdx)] = true ∧
      ∀ j : KeyIdx, j < 15 → (State.reset.setKey 15 true).key[j] = false) ∧
    (∀ k : KeyIdx, (put 0xF50A State.reset).key[k] = false)) ∧ FetchesInstr (put 0xF50A State.reset) (.ldVxK 5) :=
  ⟨by decide, rfl, 0xF50A#16, by decide, by decide⟩

theorem witness_LdDtVxSetsThenTicks : FetchesInstr (put 0xF415 State.reset) (.ldDtVx 4) :=
  ⟨rfl, 0xF415#16, by decide, by decide⟩

theorem witness_LdStVxSetsThenTicks : FetchesInstr (put 0xF018 State.reset) (.ldStVx 0) :=
  ⟨rfl, 0xF018#16, by decide, by decide⟩

theorem witness_LdBStoresDigits : Memory.wf ({ State.reset with i := 0xFFD#16 } : State).mem ∧
    dataAddr { State.reset with i := 0xFFD#16 } + 3 ≤ 4096 ∧ dataAddr { State.reset with i := 0xFFE#16 } + 3 > 4096 :=
  ⟨Memory.reset_wf, by decide, by decide⟩

theorem witness_LdMemVStoresBlock : Memory.wf ({ State.reset with i := 0xFF0#16 } : State).mem ∧
    dataAddr { State.reset with i := 0xFF0#16 } + ((15 : Reg).val + 1) ≤ 4096 ∧
    dataAddr { State.reset with i := 0xFF1#16 } + ((15 : Reg).val + 1) > 4096 :=
  ⟨Memory.reset_wf, by decide, by decide⟩

theorem witness_LdVMemLoadsBlock : dataAddr { State.reset with i := 0xFFF#16 } + ((0 : Reg).val + 1) ≤ 4096 ∧
    dataAddr { State.reset with i := 0xFFF#16 } + ((1 : Reg).val + 1) > 4096 := by
  simp [dataAddr]

end Sys2Proof.Tests
end

section
/-! SUPPORT. What the operations and instructions that branch can do, each branch with its guard: the store at `I`,
the key tests, the return, the sprite, the block load and the key wait. -/

namespace Sys2Proof.Machine

/-- A store at `I` writes its bytes and advances, or takes the fault of `memWrite`. -/
theorem State.storeAtI_cases (s : State) (bs : List Byte) :
    (∃ m, memWrite s.mem (dataAddr s) bs = .ok m ∧ s.storeAtI bs = ({ s with mem := m } : State).advance) ∨
    ∃ e, memWrite s.mem (dataAddr s) bs = .error e ∧ s.storeAtI bs = s.raise e := by
  unfold State.storeAtI
  cases memWrite s.mem (dataAddr s) bs with
  | ok m => exact .inl ⟨m, rfl, rfl⟩
  | error e => exact .inr ⟨e, rfl, rfl⟩

/-- A key test skips on the key that `V[x]` names, or faults where it names none. -/
theorem State.skipOnKey_cases (s : State) (x : Reg) (want : Bool) :
    (∃ k, keyOf (s.getV x) = some k ∧ s.skipOnKey x want = s.skipIf (s.key[k] == want)) ∨
    keyOf (s.getV x) = none ∧ s.skipOnKey x want = s.raise (.keyIndex (s.getV x)) := by
  unfold State.skipOnKey
  cases keyOf (s.getV x) with
  | some k => exact .inl ⟨k, rfl, rfl⟩
  | none => exact .inr ⟨rfl, rfl⟩

theorem execRet_eq_next_iff (s t : State) :
    execRet s = .next t ↔
      (s.stack.getLast? = none ∧ t = s.raise .stackUnderflow) ∨
      ∃ target, s.stack.getLast? = some target ∧
        t = ({ s with stack := s.stack.dropLast } : State).jumpTo target := by
  unfold execRet
  cases s.stack.getLast? <;> simp [eq_comm]

theorem execDrw_eq_next_iff (x y : Reg) (n : Count) (s t : State) :
    execDrw x y n s = .next t ↔
      (∃ e, memRead s.mem .read (dataAddr s) n.val = .error e ∧ t = s.raise e) ∨
      ∃ bytes, memRead s.mem .read (dataAddr s) n.val = .ok bytes ∧
        t = (({ s with fb := (drawSprite s.fb (s.getV x).toNat (s.getV y).toNat bytes).1 } : State).setV flagReg
          (bitByte (drawSprite s.fb (s.getV x).toNat (s.getV y).toNat bytes).2)).advance := by
  unfold execDrw
  cases memRead s.mem .read (dataAddr s) n.val <;> simp [eq_comm]

theorem execLdVMem_eq_next_iff (x : Reg) (s t : State) :
    execLdVMem x s = .next t ↔
      (∃ e, memRead s.mem .read (dataAddr s) (x.val + 1) = .error e ∧ t = s.raise e) ∨
      ∃ bs, memRead s.mem .read (dataAddr s) (x.val + 1) = .ok bs ∧
        t = ({ s with v := loadBlock s.v bs } : State).advance := by
  unfold execLdVMem
  cases memRead s.mem .read (dataAddr s) (x.val + 1) <;> simp [eq_comm]

theorem execLdVxK_eq_next_iff (x : Reg) (s t : State) :
    execLdVxK x s = .next t ↔
      (firstPressed s.key = none ∧ t = s) ∨
      ∃ k, firstPressed s.key = some k ∧ t = (s.setV x (BitVec.ofNat 8 k.val)).advance := by
  unfold execLdVxK
  cases firstPressed s.key <;> simp [eq_comm]

end Sys2Proof.Machine
end

section
/-! The keyboard state under the operations that branch, under `exec`, under `step` and under the host's setter
(10_state.md R33). -/

namespace Sys2Proof.Machine

@[simp] theorem State.storeAtI_key (s : State) (bs : List Byte) : (s.storeAtI bs).key = s.key := by
  obtain ⟨m, -, h⟩ | ⟨e, -, h⟩ := s.storeAtI_cases bs <;> simp [h]

@[simp] theorem State.skipOnKey_key (s : State) (x : Reg) (want : Bool) : (s.skipOnKey x want).key = s.key := by
  obtain ⟨k, -, h⟩ | ⟨-, h⟩ := s.skipOnKey_cases x want <;> simp [h]

@[simp] theorem State.rndWith_key (s : State) (r : Byte) (x : Reg) (kk : Byte) : (s.rndWith r x kk).key = s.key := rfl

/-- No instruction changes the keyboard state. All but four answer one chain of named updates, and each update keeps
`key`; the four that answer one of two states keep it in both. -/
theorem exec_key {i : Instr} {s t : State} (h : exec i s = .next t) : t.key = s.key := by
  cases i with
  | ret => obtain ⟨-, rfl⟩ | ⟨target, -, rfl⟩ := (execRet_eq_next_iff s t).1 h <;> simp
  | drw x y n => obtain ⟨e, -, rfl⟩ | ⟨bytes, -, rfl⟩ := (execDrw_eq_next_iff x y n s t).1 h <;> simp
  | ldVMem x => obtain ⟨e, -, rfl⟩ | ⟨bs, -, rfl⟩ := (execLdVMem_eq_next_iff x s t).1 h <;> simp
  | ldVxK x => obtain ⟨-, rfl⟩ | ⟨k, -, rfl⟩ := (execLdVxK_eq_next_iff x s t).1 h <;> simp
  | _ => obtain rfl := Host.Outcome.next.inj h; simp

/-- No step changes the keyboard state: it stays as it is, halts, or runs one instruction and perhaps ticks. -/
theorem step_key {s t : State} (h : step s = .next t) : t.key = s.key := by
  obtain ⟨-, rfl⟩ | ⟨-, f, -, rfl⟩ | ⟨-, w, e, -, -, rfl⟩ | ⟨-, w, i, u, -, -, hexec, rfl⟩ :=
    (step_eq_next_iff s t).1 h
  · rfl
  · simp
  · simp
  · have hu : u.key = s.key := exec_key hexec
    split <;> simp [hu]

theorem State.setKey_getKey (s : State) (k j : KeyIdx) (b : Bool) :
    (s.setKey k b).key[j] = if k = j then b else s.key[j] := by
  simp [Vector.getElem_set, Fin.ext_iff]

end Sys2Proof.Machine
end

section
namespace Sys2Proof.Proofs

open Sys2Proof.Machine

/-- Settles O16: every branch of a step keeps KEY, and the setter is a write of one vector element. -/
theorem keysAreMutatedOnlyByTheHost : Obligations.KeysAreMutatedOnlyByTheHost :=
  ⟨fun _ _ => step_key, State.setKey_getKey⟩

end Sys2Proof.Proofs
end

section
/-! SUPPORT. A checked read as a list, a stored run read back as a whole, the number a fetched word is, and what `Fx55`
does where its block lies in memory. -/

namespace Sys2Proof

@[simp] theorem toNat_wordOfBytes (hi lo : Byte) : (wordOfBytes hi lo).toNat = hi.toNat * 256 + lo.toNat := by
  have := hi.isLt
  have := lo.isLt
  simp [wordOfBytes]; omega

end Sys2Proof

namespace Sys2Proof.Machine

/-- Byte `k` of a read, as a lookup that can miss (20_memory.md R51). -/
theorem Memory.getElem?_readBytes (m : Memory) (a : Nat) {n k : Nat} (hk : k < n) :
    (Memory.readBytes m a n)[k]? = some (Memory.read m (a + k)) := by
  have hlen : k < (Memory.readBytes m a n).length := by simpa using hk
  rw [List.getElem?_eq_getElem hlen, Memory.getElem_readBytes]

/-- A stored run is read back as a whole (20_memory.md R51, R52). -/
theorem Memory.readBytes_writeBytes_same (m : Memory) (a : Nat) (ws : List Byte)
    (hm : m.Pairwise fun c d => c.1 < d.1) : Memory.readBytes (Memory.writeBytes m a ws) a ws.length = ws := by
  refine List.ext_getElem (Memory.length_readBytes _ _ _) fun k hr hw => ?_
  rw [Memory.getElem_readBytes, Memory.read_writeBytes_same m a ws hm hw]

/-- A store at `I` whose range lies in memory writes its bytes and advances (20_memory.md R52). -/
theorem State.storeAtI_of_le {s : State} {bs : List Byte} (h : dataAddr s + bs.length ≤ 4096) :
    s.storeAtI bs = ({ s with mem := Memory.writeBytes s.mem (dataAddr s) bs } : State).advance := by
  obtain ⟨m, hm, hs⟩ | ⟨e, he, -⟩ := s.storeAtI_cases bs
  · obtain ⟨-, rfl⟩ := (memWrite_ok_iff _ _ _ _).1 hm
    exact hs
  · obtain ⟨hgt, -⟩ := (memWrite_error_iff _ _ _ _).1 he
    omega

theorem exec_ldMemV_eq (x : Reg) (s : State) : exec (.ldMemV x) s = .next (s.storeAtI (regBlock s x)) := rfl

/-- Where a register block V0 to V[x] is stored, V[r] is read back at byte `r` of it (44_index_memory.md R194). -/
theorem Memory.read_writeBytes_regBlock {s : State} (a : Nat) {x r : Reg} (hm : Memory.wf s.mem) (hr : r ≤ x) :
    Memory.read (Memory.writeBytes s.mem a (regBlock s x)) (a + r.val) = s.getV r := by
  have hlen : r.val < (regBlock s x).length := by
    rw [length_regBlock]
    exact Nat.lt_succ_of_le hr
  rw [Memory.read_writeBytes_same s.mem a (regBlock s x) hm.1 hlen, getElem_regBlock]

end Sys2Proof.Machine
end

section
namespace Sys2Proof.Proofs

open Sys2Proof.Machine

/-- Settles O6: the word `fetchWord` answers, read as a number. -/
theorem fetchIsBigEndian : Obligations.FetchIsBigEndian := fun s hpc =>
  ⟨_, (fetchWord_ok_iff s _).2 ⟨hpc, rfl⟩, toNat_wordOfBytes _ _⟩

/-- Settles O28: the two cases of the range check, with the bytes of the read one by one. -/
theorem memReadAnswersRangeOrFaults : Obligations.MemReadAnswersRangeOrFaults := fun m d a n =>
  ⟨fun hin => ⟨Memory.readBytes m a n, (memRead_ok_iff m d a n _).2 ⟨hin, rfl⟩, Memory.length_readBytes m a n,
      fun _ => Memory.getElem?_readBytes m a⟩,
    fun hout => (memRead_error_iff m d a n _).2 ⟨hout, rfl⟩⟩

/-- Settles O29: the two cases of the range check; a write inside it is a run of stores, which keeps the form, is read
back whole and leaves the addresses outside it. -/
theorem memWriteIsReadBack : Obligations.MemWriteIsReadBack := by
  intro m a bs hm
  refine ⟨fun hin => ⟨Memory.writeBytes m a bs, (memWrite_ok_iff m a bs _).2 ⟨hin, rfl⟩,
    Memory.writeBytes_wf bs hm hin, fun d => ?_, fun b => Memory.read_writeBytes_other m bs⟩,
    fun hout => (memWrite_error_iff m a bs _).2 ⟨hout, rfl⟩⟩
  exact (memRead_ok_iff _ d a bs.length bs).2 ⟨hin, (Memory.readBytes_writeBytes_same m a bs hm.1).symm⟩

/-- Settles O30: the store completes, so the pc is the address where V[j] was stored, and the fetch there reads V[j] and
V[k] back. -/
theorem storedCodeIsFetched : Obligations.StoredCodeIsFetched := by
  intro s x j k hm hfits hj hk hkx
  have hkx' : k.val ≤ x.val := hkx
  have hjx : j ≤ x := Fin.le_def.2 (by omega)
  have hpc : (s.pc + 2#16).toNat = dataAddr s + j.val := by
    rw [BitVec.toNat_add, BitVec.toNat_ofNat]
    omega
  have hstore := State.storeAtI_of_le (s := s) (bs := regBlock s x) (by rwa [length_regBlock])
  refine ⟨_, (exec_ldMemV_eq x s).trans (congrArg _ hstore), hpc.trans hj.symm, (fetchWord_ok_iff _ _).2 ⟨?_, ?_⟩⟩
  · rw [State.advance_pc, hpc]
    omega
  · rw [State.advance_pc, State.advance_mem, hpc, Nat.add_assoc, ← hk,
      Memory.read_writeBytes_regBlock _ hm hjx, Memory.read_writeBytes_regBlock _ hm hkx]

end Sys2Proof.Proofs
end

section
/-! SUPPORT. The pc after each advance as a number, the operands at which an instruction has no fault of its own, and
where the pc goes then (30_encoding.md R74, R75, R76). -/

namespace Sys2Proof.Machine

/-! The advances where a fetch succeeds: no 16-bit sum wraps (30_encoding.md R76). -/

theorem State.toNat_advance_pc {s : State} (hpc : s.pc.toNat + 2 ≤ 4096) :
    (s.advance).pc.toNat = s.pc.toNat + 2 :=
  BitVec.toNat_add_of_lt (y := 2#16) (Nat.lt_of_le_of_lt hpc (by decide))

theorem State.toNat_skipIf_pc {s : State} (hpc : s.pc.toNat + 2 ≤ 4096) (c : Bool) :
    (s.skipIf c).pc.toNat = s.pc.toNat + if c then 4 else 2 := by
  have hfour : s.pc.toNat + (4#16).toNat < 2 ^ 16 := Nat.lt_of_le_of_lt (Nat.add_le_add_right hpc 2) (by decide)
  cases c with
  | true => exact BitVec.toNat_add_of_lt hfour
  | false => exact State.toNat_advance_pc hpc

theorem State.skipIf_pc_eq_or (s : State) (c : Bool) :
    (s.skipIf c).pc = s.pc + 4#16 ∨ (s.skipIf c).pc = s.pc + 2#16 := by
  cases c with
  | true => exact .inl rfl
  | false => exact .inr rfl

/-! Where an instruction that can fault has no fault due (60_exceptions.md R215). -/

theorem ownFault_drw_eq_none_iff (x y : Reg) (n : Count) (s : State) :
    ownFault (.drw x y n) s = none ↔ dataAddr s + n.val ≤ 4096 := by
  simp [ownFault, dataAddr]

theorem ownFault_ldB_eq_none_iff (x : Reg) (s : State) :
    ownFault (.ldB x) s = none ↔ dataAddr s + (bcdDigits (s.getV x)).length ≤ 4096 := by
  simp [ownFault, dataAddr]; omega

theorem ownFault_ldMemV_eq_none_iff (x : Reg) (s : State) :
    ownFault (.ldMemV x) s = none ↔ dataAddr s + (regBlock s x).length ≤ 4096 := by
  simp [ownFault, dataAddr, Nat.add_assoc]

theorem ownFault_ldVMem_eq_none_iff (x : Reg) (s : State) :
    ownFault (.ldVMem x) s = none ↔ dataAddr s + (x.val + 1) ≤ 4096 := by
  simp [ownFault, dataAddr, Nat.add_assoc]

theorem ownFault_skp_eq_none_iff (x : Reg) (s : State) :
    ownFault (.skp x) s = none ↔ (s.getV x).toNat < 16 := by
  simp [ownFault]

theorem ownFault_sknp_eq_none_iff (x : Reg) (s : State) :
    ownFault (.sknp x) s = none ↔ (s.getV x).toNat < 16 :=
  ownFault_skp_eq_none_iff x s

/-! The pc after an operation that can fault, where it does not. -/

theorem State.storeAtI_pc_of_le {s : State} {bs : List Byte} (hin : dataAddr s + bs.length ≤ 4096) :
    (s.storeAtI bs).pc = s.pc + 2#16 := by
  rw [State.storeAtI_of_le hin, State.advance_pc]

theorem State.skipOnKey_pc_of_lt {s : State} {x : Reg} (hkey : (s.getV x).toNat < 16) (want : Bool) :
    (s.skipOnKey x want).pc = s.pc + 4#16 ∨ (s.skipOnKey x want).pc = s.pc + 2#16 := by
  obtain ⟨k, -, hskip⟩ | ⟨hnone, -⟩ := s.skipOnKey_cases x want
  · exact hskip ▸ s.skipIf_pc_eq_or _
  · exact absurd ((keyOf_eq_none_iff _).1 hnone) (Nat.not_le.2 hkey)

theorem execDrw_pc_of_le {x y : Reg} {n : Count} {s t : State} (hin : dataAddr s + n.val ≤ 4096)
    (h : execDrw x y n s = .next t) : t.pc = s.pc + 2#16 := by
  obtain ⟨e, he, -⟩ | ⟨bytes, -, rfl⟩ := (execDrw_eq_next_iff x y n s t).1 h
  · exact absurd hin (Nat.not_le.2 ((memRead_error_iff _ _ _ _ _).1 he).1)
  · simp

theorem execLdVMem_pc_of_le {x : Reg} {s t : State} (hin : dataAddr s + (x.val + 1) ≤ 4096)
    (h : execLdVMem x s = .next t) : t.pc = s.pc + 2#16 := by
  obtain ⟨e, he, -⟩ | ⟨bs, -, rfl⟩ := (execLdVMem_eq_next_iff x s t).1 h
  · exact absurd hin (Nat.not_le.2 ((memRead_error_iff _ _ _ _ _).1 he).1)
  · simp

/-- The key wait holds the pc exactly while no key is pressed (43_keys_timers.md R177). -/
theorem execLdVxK_pc {x : Reg} {s t : State} (h : execLdVxK x s = .next t) :
    if ∀ k : KeyIdx, s.key[k] = false then t.pc = s.pc else t.pc = s.pc + 2#16 := by
  simp only [← firstPressed_eq_none_iff]
  obtain ⟨hnone, rfl⟩ | ⟨k, hsome, rfl⟩ := (execLdVxK_eq_next_iff x s t).1 h
  · simp [hnone]
  · simp [hsome]

@[simp] theorem State.rndWith_pc (s : State) (r : Byte) (x : Reg) (kk : Byte) :
    (s.rndWith r x kk).pc = s.pc + 2#16 := rfl

/-- Where the pc goes, instruction by instruction: nothing is said of the four that set it; a skip has its two targets;
an instruction that can fault stays on its other branch, since its fault is not due; the rest end in `advance`. -/
theorem exec_advancesPc {i : Instr} {s t : State} (hown : ownFault i s = none) (h : exec i s = .next t) :
    AdvancesPc i s t := by
  cases i with
  | ret | jp | call | jpV0 => trivial
  | seImm | sneImm | seReg | sneReg =>
    obtain rfl := Host.Outcome.next.inj h
    exact s.skipIf_pc_eq_or _
  | skp x =>
    obtain rfl := Host.Outcome.next.inj h
    exact State.skipOnKey_pc_of_lt ((ownFault_skp_eq_none_iff x s).1 hown) true
  | sknp x =>
    obtain rfl := Host.Outcome.next.inj h
    exact State.skipOnKey_pc_of_lt ((ownFault_sknp_eq_none_iff x s).1 hown) false
  | drw x y n => exact execDrw_pc_of_le ((ownFault_drw_eq_none_iff x y n s).1 hown) h
  | ldB x =>
    obtain rfl := Host.Outcome.next.inj h
    exact State.storeAtI_pc_of_le ((ownFault_ldB_eq_none_iff x s).1 hown)
  | ldMemV x =>
    obtain rfl := Host.Outcome.next.inj h
    exact State.storeAtI_pc_of_le ((ownFault_ldMemV_eq_none_iff x s).1 hown)
  | ldVMem x => exact execLdVMem_pc_of_le ((ownFault_ldVMem_eq_none_iff x s).1 hown) h
  | ldVxK x => exact execLdVxK_pc h
  | _ =>
    obtain rfl := Host.Outcome.next.inj h
    simp [AdvancesPc]

end Sys2Proof.Machine
end

section
namespace Sys2Proof.Proofs

open Sys2Proof.Machine

/-- Settles O14: the pc of `exec`, constructor by constructor, where the instruction's own fault is not due. -/
theorem everyInstructionAdvancesPc : Obligations.EveryInstructionAdvancesPc := fun _ _ _ => exec_advancesPc

/-- Settles O13: each advance is an exact sum up to 4096 + 2, and the fetch faults from 4095 on. -/
theorem pcAdvanceIsExact : Obligations.PcAdvanceIsExact := by
  refine ⟨fun s hpc => ⟨State.toNat_advance_pc hpc, State.toNat_skipIf_pc hpc, fun c => ?_⟩,
    fun s hpc => (fetchWord_error_iff s _).2 ⟨hpc, rfl⟩⟩
  rw [State.toNat_skipIf_pc hpc]
  split <;> omega

end Sys2Proof.Proofs
end

section
/-! SUPPORT. The fields of a word built by each format of the opcode table, and the word of an instruction decoded back
(30_encoding.md R70 to R72). -/

namespace Sys2Proof

open Sys2Proof.Laws

theorem fieldNnn_opNnn {a : Nat} (ha : a < 16) (nnn : Addr12) : fieldNnn (opNnn a nnn.toNat) = nnn := by
  apply BitVec.eq_of_toNat_eq
  rw [fieldNnn, bitField_nnn, toNat_opNnn ha nnn.isLt, BitVec.toNat_ofNat]
  omega

theorem fieldX_opXKk {a c : Nat} (ha : a < 16) (hc : c < 256) (x : Reg) : fieldX (opXKk a x.val c) = x := by
  apply Fin.ext
  rw [fieldX, bitField_x, toNat_opXKk ha x.isLt hc, Fin.val_ofNat]
  omega

theorem bitField_kk_opXKk {a b c : Nat} (ha : a < 16) (hb : b < 16) (hc : c < 256) :
    bitField (opXKk a b c) 7 0 = c := by
  rw [bitField_kk, toNat_opXKk ha hb hc]
  omega

theorem fieldKk_opXKk {a b : Nat} (ha : a < 16) (hb : b < 16) (kk : Byte) : fieldKk (opXKk a b kk.toNat) = kk := by
  rw [fieldKk, bitField_kk_opXKk ha hb kk.isLt, BitVec.ofNat_toNat, BitVec.setWidth_eq]

theorem fieldX_nibbles {a c d : Nat} (ha : a < 16) (hc : c < 16) (hd : d < 16) (x : Reg) :
    fieldX (nibbles a x.val c d) = x := by
  apply Fin.ext
  rw [fieldX, bitField_x, toNat_nibbles ha x.isLt hc hd, Fin.val_ofNat]
  omega

theorem fieldY_nibbles {a b d : Nat} (ha : a < 16) (hb : b < 16) (hd : d < 16) (y : Reg) :
    fieldY (nibbles a b y.val d) = y := by
  apply Fin.ext
  rw [fieldY, bitField_y, toNat_nibbles ha hb y.isLt hd, Fin.val_ofNat]
  omega

theorem bitField_n_nibbles {a b c d : Nat} (ha : a < 16) (hb : b < 16) (hc : c < 16) (hd : d < 16) :
    bitField (nibbles a b c d) 3 0 = d := by
  rw [bitField_n, toNat_nibbles ha hb hc hd]
  omega

theorem fieldN_nibbles {a b c : Nat} (ha : a < 16) (hb : b < 16) (hc : c < 16) (n : Count) :
    fieldN (nibbles a b c n.val) = n := by
  rw [fieldN, bitField_n_nibbles ha hb hc n.isLt]
  exact Fin.ofNat_val_eq_self n

/-- The word of an instruction the core has decodes to it: the format's first digit picks the family, and each field of
the word is the operand put there. -/
theorem decodeWordWith_encode {fx18 : Bool} {i : Instr} (h : i.wellFormedWith fx18 = true) :
    decodeWordWith fx18 (encode i) = .ok i := by
  cases i with
  | cls | ret => rfl
  | jp nnn | call nnn | ldI nnn | jpV0 nnn =>
    simp only [encode, decodeWordWith, fieldOp_opNnn, fieldNnn_opNnn, nnn.isLt, Nat.reduceLT]
  | seImm x kk | sneImm x kk | ldImm x kk | addImm x kk | rnd x kk =>
    simp only [encode, decodeWordWith, fieldOp_opXKk, fieldX_opXKk, fieldKk_opXKk, x.isLt, kk.isLt, Nat.reduceLT]
  | skp x | sknp x =>
    simp [encode, decodeWordWith, decodeKey, fieldOp_opXKk, fieldX_opXKk, bitField_kk_opXKk, -bitField_kk]
  | ldStVx x =>
    have hfx18 : fx18 = true := h
    simp [encode, decodeWordWith, decodeMisc, fieldOp_opXKk, fieldX_opXKk, bitField_kk_opXKk, -bitField_kk, hfx18]
  | ldVxDt x | ldVxK x | ldDtVx x | addI x | ldF x | ldB x | ldMemV x | ldVMem x =>
    simp [encode, decodeWordWith, decodeMisc, fieldOp_opXKk, fieldX_opXKk, bitField_kk_opXKk, -bitField_kk]
  | seReg x y | sneReg x y =>
    simp [encode, decodeWordWith, fieldOp_nibbles, fieldX_nibbles, fieldY_nibbles, bitField_n_nibbles, -bitField_n]
  | drw x y n =>
    simp [encode, decodeWordWith, fieldOp_nibbles, fieldX_nibbles, fieldY_nibbles, fieldN_nibbles]
  | _ x y =>
    simp [encode, decodeWordWith, decodeEight, fieldOp_nibbles, fieldX_nibbles, fieldY_nibbles, bitField_n_nibbles,
      -bitField_n]

/-- The same for this core, for an instruction and its word written out. -/
theorem decodeWord_of_encode_eq {w : Word} {i : Instr} (hw : encode i = w) (h : i.wellFormed = true) :
    decodeWord w = .ok i :=
  hw ▸ decodeWordWith_encode h

end Sys2Proof
end

section
/-! SUPPORT. What a jump, a skip and a change of the stack leave unchanged. -/

namespace Sys2Proof.Machine

theorem Frame.refl (regs : List Reg) (parts : List Part) (s : State) : Frame regs parts s s :=
  ⟨fun _ _ => rfl, fun p _ => by cases p <;> simp [Part.Same]⟩

/-- A frame says nothing of the pc, so it holds after a jump as well. -/
theorem Frame.jumpTo {regs : List Reg} {parts : List Part} {s t : State} (h : Frame regs parts s t) (p : Word) :
    Frame regs parts s (t.jumpTo p) := by
  obtain ⟨hregs, hparts⟩ := h
  exact ⟨hregs, fun q hq => by cases q <;> exact hparts _ hq⟩

theorem Frame.withStack (s : State) (stack : List Word) : Frame [] [.stack] s { s with stack := stack } :=
  ⟨fun _ _ => rfl, fun p hp => by cases p <;> simp_all [Part.Same]⟩

/-- An instruction that ends in the skip advance skips exactly on its condition and changes the pc alone
(30_encoding.md R75). -/
theorem exec_skips {i : Instr} {s : State} {c : Bool} {P : Prop} [Decidable P]
    (hexec : exec i s = .next (s.skipIf c)) (hc : c = true ↔ P) :
    ∃ t, exec i s = .next t ∧ (t.pc = if P then s.pc + 4#16 else s.pc + 2#16) ∧ Frame [] [] s t :=
  ⟨s.skipIf c, hexec, (s.skipIf_pc c).trans (if_congr hc rfl rfl), (Frame.refl [] [] s).jumpTo _⟩

/-- RET with a top entry (40_control_flow.md R100). -/
theorem execRet_of_stack_append {s : State} {below : List Word} {top : Word} (h : s.stack = below ++ [top]) :
    execRet s = .next (({ s with stack := below } : State).jumpTo top) :=
  (execRet_eq_next_iff s _).2 (.inr ⟨top, by simp [h], by simp [h]⟩)

/-- RET with an empty stack (60_exceptions.md R213). -/
theorem execRet_of_stack_nil {s : State} (h : s.stack = []) : execRet s = .next (s.raise .stackUnderflow) :=
  (execRet_eq_next_iff s _).2 (.inl ⟨by simp [h], rfl⟩)

end Sys2Proof.Machine
end

section
namespace Sys2Proof.Proofs

open Sys2Proof.Machine

/-- Settles O32: the stack has a last entry or is empty, and each is one branch of RET. -/
theorem retPopsTopOrUnderflows : Obligations.RetPopsTopOrUnderflows := fun s =>
  ⟨decodeWord_of_encode_eq rfl rfl,
    fun below top hstack =>
      ⟨_, execRet_of_stack_append hstack, rfl, rfl, (Frame.withStack s below).jumpTo top⟩,
    fun hstack => ⟨_, execRet_of_stack_nil hstack, rfl⟩⟩

/-- Settles O33: one jump to `nnn` zero-extended. -/
theorem jpSetsPc : Obligations.JpSetsPc := fun s nnn =>
  ⟨decodeWord_of_encode_eq rfl rfl, s.jumpTo (zext16 nnn), rfl, toNat_zext16 nnn, (Frame.refl [] [] s).jumpTo _⟩

/-- Settles O34: one entry on the end of the stack, whatever it holds, and one jump. -/
theorem callPushesReturnAddress : Obligations.CallPushesReturnAddress := fun s nnn =>
  ⟨decodeWord_of_encode_eq rfl rfl, ({ s with stack := s.stack ++ [s.pc + 2#16] } : State).jumpTo (zext16 nnn), rfl,
    toNat_zext16 nnn, rfl, (Frame.withStack s _).jumpTo _⟩

/-- Settles O35: one skip on `V[x]` equal to `kk`, one on the negation. -/
theorem immediateSkips : Obligations.ImmediateSkips := fun _ _ _ =>
  ⟨decodeWord_of_encode_eq rfl rfl, decodeWord_of_encode_eq rfl rfl, exec_skips rfl beq_iff_eq,
    exec_skips rfl bne_iff_ne⟩

/-- Settles O36: as for the immediates, with `V[y]` in the place of `kk`. -/
theorem registerSkips : Obligations.RegisterSkips := fun _ _ _ =>
  ⟨decodeWord_of_encode_eq rfl rfl, decodeWord_of_encode_eq rfl rfl, exec_skips rfl beq_iff_eq,
    exec_skips rfl bne_iff_ne⟩

/-- Settles O37: one jump to the exact sum, which the widths of its two terms bound. -/
theorem jpV0AddsExactly : Obligations.JpV0AddsExactly := by
  intro s nnn
  have hsum : (offsetTarget nnn (s.getV 0)).toNat = nnn.toNat + (s.getV 0).toNat := toNat_offsetTarget nnn _
  have hnnn := nnn.isLt
  have hv0 := (s.getV 0).isLt
  refine ⟨decodeWord_of_encode_eq rfl rfl, s.jumpTo (offsetTarget nnn (s.getV 0)), rfl, hsum, ?_,
    (Frame.refl [] [] s).jumpTo _⟩
  rw [State.jumpTo_pc, hsum]
  omega

end Sys2Proof.Proofs
end

section
/-! SUPPORT. A register write and the two writes of a flag-setting instruction: what they leave unchanged, and the flags
and the wrapped difference as numbers (41_alu.md R120, R121). -/

namespace Sys2Proof.Machine

/-! Frames of the register writes. -/

theorem Frame.setV (s : State) (x : Reg) (b : Byte) : Frame [x] [] s (s.setV x b) :=
  ⟨fun r hr => State.setV_getV_other s b (by simpa [eq_comm] using hr), fun p _ => by cases p <;> simp [Part.Same]⟩

/-- Both writes of a flag-setting instruction reach `V[x]` and VF alone, whichever order they come in. -/
theorem Frame.setResultFlag (s : State) (x : Reg) (b : Byte) (c : Bool) :
    Frame [x, flagReg] [] s (s.setResultFlag x b c) := by
  refine ⟨fun r hr => ?_, fun p _ => by cases p <;> simp [Part.Same]⟩
  obtain ⟨hx, hflag⟩ : r ≠ x ∧ r ≠ flagReg := by simpa using hr
  rw [State.setResultFlag_getV, if_neg hflag.symm, if_neg hx.symm]

/-! Each flag as the number its rule names, and the difference that wraps (D3). -/

theorem toNat_bitByte_carryOut (a b : Byte) :
    (bitByte (carryOut a b)).toNat = if a.toNat + b.toNat > 255 then 1 else 0 := by
  simp [toNat_bitByte, carryOut]

theorem toNat_bitByte_strictlyAbove (a b : Byte) :
    (bitByte (strictlyAbove a b)).toNat = if a.toNat > b.toNat then 1 else 0 := by
  simp [toNat_bitByte, strictlyAbove]

theorem toNat_bitByte_lowBit (a : Byte) : (bitByte (lowBit a)).toNat = a.toNat % 2 := by
  simp only [toNat_bitByte, lowBit, decide_eq_true_eq]
  split <;> omega

/-- Bit 7 of a byte is its quotient by 128, since a byte is below 256. -/
theorem toNat_bitByte_topBit (a : Byte) : (bitByte (topBit a)).toNat = a.toNat / 128 := by
  have ha := a.isLt
  simp only [toNat_bitByte, topBit, decide_eq_true_eq]
  split <;> omega

theorem intCast_toNat_diffByte (a b : Byte) : ((diffByte a b).toNat : Int) = ((a.toNat : Int) - b.toNat) % 256 := by
  have hb := b.isLt
  rw [toNat_diffByte]
  omega

/-- An instruction that ends in one register write and the advance: VF changes only as the destination. -/
theorem exec_setsV {i : Instr} {s : State} {x : Reg} {b : Byte} (hexec : exec i s = .next (s.setV x b).advance) :
    ∃ t, exec i s = .next t ∧ t.getV x = b ∧ t.pc = s.pc + 2#16 ∧ Frame [x] [] s t :=
  ⟨_, hexec, State.setV_getV_same s x b, rfl, (Frame.setV s x b).jumpTo _⟩

/-- An instruction that ends in the two writes and the advance: the result in `V[x]` unless the flag wins there, the flag
in VF for every `x` (41_alu.md R121). -/
theorem exec_setsResultFlag {i : Instr} {s : State} {x : Reg} {b : Byte} {c : Bool}
    (hexec : exec i s = .next (s.setResultFlag x b c).advance) :
    ∃ t, exec i s = .next t ∧ (x ≠ flagReg → t.getV x = b) ∧ t.getV flagReg = bitByte c ∧ t.pc = s.pc + 2#16 ∧
      Frame [x, flagReg] [] s t := by
  refine ⟨_, hexec, fun hx => ?_, ?_, ?_, (Frame.setResultFlag s x b c).jumpTo _⟩
  · rw [State.advance_getV, State.setResultFlag_getV, if_neg hx.symm, if_pos rfl]
  · rw [State.advance_getV, State.setResultFlag_getV, if_pos rfl]
  · rw [State.advance_pc, State.setResultFlag_pc]

end Sys2Proof.Machine
end

section
namespace Sys2Proof.Proofs

open Sys2Proof.Machine

/-- Settles O38: one register write of `kk`. -/
theorem ldImmLoadsByte : Obligations.LdImmLoadsByte := fun _ _ _ => ⟨decodeWord_of_encode_eq rfl rfl, exec_setsV rfl⟩

/-- Settles O39: one register write of the narrowed sum, and none to VF. -/
theorem addImmWrapsWithoutFlag : Obligations.AddImmWrapsWithoutFlag := by
  refine fun s x kk => ⟨decodeWord_of_encode_eq rfl rfl, ?_⟩
  obtain ⟨t, hexec, hresult, hrest⟩ := exec_setsV (i := .addImm x kk) (s := s) rfl
  exact ⟨t, hexec, hresult ▸ toNat_sumByte _ _, hrest⟩

/-- Settles O40: one register write of the old `V[y]`. -/
theorem ldRegCopies : Obligations.LdRegCopies := fun _ _ _ => ⟨decodeWord_of_encode_eq rfl rfl, exec_setsV rfl⟩

/-- Settles O41: one register write each, of the bitwise operation on the two old values. -/
theorem logicWorksBitwise : Obligations.LogicWorksBitwise := by
  refine fun s x y => ⟨decodeWord_of_encode_eq rfl rfl, decodeWord_of_encode_eq rfl rfl, decodeWord_of_encode_eq rfl rfl,
    ?_, ?_, ?_⟩
  · obtain ⟨t, hexec, hresult, hpc, hframe⟩ := exec_setsV (i := .or x y) (s := s) rfl
    exact ⟨t, hexec, hpc, hframe, fun _ => hresult ▸ BitVec.getLsbD_or⟩
  · obtain ⟨t, hexec, hresult, hpc, hframe⟩ := exec_setsV (i := .and x y) (s := s) rfl
    exact ⟨t, hexec, hpc, hframe, fun _ => hresult ▸ BitVec.getLsbD_and⟩
  · obtain ⟨t, hexec, hresult, hpc, hframe⟩ := exec_setsV (i := .xor x y) (s := s) rfl
    exact ⟨t, hexec, hpc, hframe, fun _ => hresult ▸ BitVec.getLsbD_xor⟩

/-- Settles O42: the narrowed sum and its carry, the carry written last. -/
theorem addRegSetsCarryLast : Obligations.AddRegSetsCarryLast := by
  refine fun s x y => ⟨decodeWord_of_encode_eq rfl rfl, ?_⟩
  obtain ⟨t, hexec, hresult, hflag, hrest⟩ := exec_setsResultFlag (i := .addReg x y) (s := s) rfl
  exact ⟨t, hexec, fun hx => hresult hx ▸ toNat_sumByte _ _, hflag ▸ toNat_bitByte_carryOut _ _, hrest⟩

/-- Settles O43: the difference wraps also when it borrows, and the flag is the strict comparison. -/
theorem subWrapsWithStrictFlag : Obligations.SubWrapsWithStrictFlag := by
  refine fun s x y => ⟨decodeWord_of_encode_eq rfl rfl, ?_⟩
  obtain ⟨t, hexec, hresult, hflag, hrest⟩ := exec_setsResultFlag (i := .sub x y) (s := s) rfl
  exact ⟨t, hexec, fun hx => hresult hx ▸ intCast_toNat_diffByte _ _, hflag ▸ toNat_bitByte_strictlyAbove _ _, hrest⟩

/-- Settles O45: each shift writes the shifted byte and then the bit shifted out, and neither reads `V[y]`. -/
theorem shiftsMoveVxByOne : Obligations.ShiftsMoveVxByOne := by
  refine fun s x y => ⟨decodeWord_of_encode_eq rfl rfl, decodeWord_of_encode_eq rfl rfl, ?_, ?_⟩
  · obtain ⟨t, hexec, hresult, hflag, hrest⟩ := exec_setsResultFlag (i := .shr x y) (s := s) rfl
    exact ⟨t, hexec, fun hx => hresult hx ▸ toNat_shrByte _, hflag ▸ toNat_bitByte_lowBit _, hrest⟩
  · obtain ⟨t, hexec, hresult, hflag, hrest⟩ := exec_setsResultFlag (i := .shl x y) (s := s) rfl
    exact ⟨t, hexec, fun hx => hresult hx ▸ toNat_shlByte _, hflag ▸ toNat_bitByte_topBit _, hrest⟩

end Sys2Proof.Proofs
end

section
/-! SUPPORT. The framebuffer as a part of the state, and the cells of the snapshot (42_display.md R150). -/

namespace Sys2Proof.Machine

theorem Frame.trans {regs regs' : List Reg} {parts parts' : List Part} {s t u : State}
    (hst : Frame regs parts s t) (htu : Frame regs' parts' t u) : Frame (regs ++ regs') (parts ++ parts') s u := by
  obtain ⟨hregs, hparts⟩ := hst
  obtain ⟨hregs', hparts'⟩ := htu
  refine ⟨fun r hr => ?_, fun p hp => ?_⟩
  · obtain ⟨hr, hr'⟩ := not_or.1 (mt List.mem_append.2 hr)
    exact (hregs' r hr').trans (hregs r hr)
  · obtain ⟨hp, hp'⟩ := not_or.1 (mt List.mem_append.2 hp)
    have hs := hparts p hp
    have ht := hparts' p hp'
    cases p with
    | mem => exact fun a => (ht a).trans (hs a)
    | _ => exact Eq.trans ht hs

theorem Frame.withFb (s : State) (fb : Framebuffer) : Frame [] [.fb] s { s with fb := fb } :=
  ⟨fun _ _ => rfl, fun p hp => by cases p <;> simp_all [Part.Same]⟩

@[simp] theorem length_snapshot (fb : Framebuffer) : (snapshot fb).length = 2048 := by simp [snapshot]

theorem bitByte_eq_or (b : Bool) : bitByte b = 0#8 ∨ bitByte b = 1#8 := by
  cases b with
  | false => exact .inl rfl
  | true => exact .inr rfl

theorem bitByte_eq_one_iff (b : Bool) : bitByte b = 1#8 ↔ b = true := by cases b <;> decide

theorem eq_zero_or_one_of_mem_snapshot {fb : Framebuffer} {b : Byte} (hb : b ∈ snapshot fb) : b = 0#8 ∨ b = 1#8 := by
  obtain ⟨k, -, rfl⟩ := List.mem_map.1 hb
  exact bitByte_eq_or _

/-- The quotient and the remainder of `r * 64 + c` by 64 are the row and the column. -/
theorem snapshot_getElem? (fb : Framebuffer) (r : Fin 32) (c : Fin 64) :
    (snapshot fb)[r.val * 64 + c.val]? = some (bitByte fb[r][c]) := by
  have hrow : Fin.ofNat 32 ((r.val * 64 + c.val) / 64) = r := Fin.ext (by simp; omega)
  have hcol : Fin.ofNat 64 (r.val * 64 + c.val) = c := Fin.ext (by simp)
  have hk : r.val * 64 + c.val < 2048 := by omega
  simp only [snapshot, List.getElem?_map, List.getElem?_range hk, Option.map_some, hrow, hcol]

end Sys2Proof.Machine
end

section
namespace Sys2Proof.Proofs

open Sys2Proof.Machine

/-- Settles O31: the blank framebuffer and the advance. -/
theorem clsClearsEveryCell : Obligations.ClsClearsEveryCell := fun s =>
  ⟨decodeWord_of_encode_eq rfl rfl, ({ s with fb := blankFb } : State).advance, rfl, blankFb_cell, rfl,
    (Frame.withFb s blankFb).jumpTo _⟩

/-- Settles O26: a list of 2048 flag bytes, read at `r * 64 + c`. -/
theorem snapshotIsRowMajor : Obligations.SnapshotIsRowMajor := fun s =>
  ⟨length_snapshot s.fb, fun _ => eq_zero_or_one_of_mem_snapshot, snapshot_getElem? s.fb⟩

end Sys2Proof.Proofs
end

section
/-! SUPPORT. What the sprite loop does to the whole framebuffer: each stage of it toggles a set of cells and collides iff
one of them was 1, and two stages that share no cell make one such stage (42_display.md R152, R153). -/

namespace Sys2Proof.Machine

/-- Drawing takes the cells and the collision `p` to `q` by toggling exactly the covered cells. -/
structure Toggles (covers : Fin 32 → Fin 64 → Prop) (p q : Framebuffer × Bool) : Prop where
  covered : ∀ r c, covers r c → q.1[r][c] = !p.1[r][c]
  uncovered : ∀ r c, ¬ covers r c → q.1[r][c] = p.1[r][c]
  hit_iff : q.2 = true ↔ p.2 = true ∨ ∃ r c, covers r c ∧ p.1[r][c] = true

theorem Toggles.of_not_covers {covers : Fin 32 → Fin 64 → Prop} (h : ∀ r c, ¬ covers r c) (p : Framebuffer × Bool) :
    Toggles covers p p :=
  ⟨fun r c hc => absurd hc (h r c), fun _ _ _ => rfl, by simp [h]⟩

theorem Toggles.congr {covers covers' : Fin 32 → Fin 64 → Prop} {p q : Framebuffer × Bool} (h : Toggles covers p q)
    (hiff : ∀ r c, covers' r c ↔ covers r c) : Toggles covers' p q := by
  rwa [show covers' = covers from funext₂ fun r c => propext (hiff r c)]

/-- A cell that the first stage covers is one the second leaves as it finds it, and conversely, so each of the union's
cells is toggled once and is tested for a collision at its first value. -/
theorem Toggles.trans {first second both : Fin 32 → Fin 64 → Prop} {p q u : Framebuffer × Bool}
    (hpq : Toggles first p q) (hqu : Toggles second q u) (hdisj : ∀ r c, first r c → ¬ second r c)
    (hboth : ∀ r c, both r c ↔ first r c ∨ second r c) : Toggles both p u where
  covered r c hc := by
    obtain hc | hc := (hboth r c).1 hc
    · rw [hqu.uncovered r c (hdisj r c hc), hpq.covered r c hc]
    · rw [hqu.covered r c hc, hpq.uncovered r c fun h => hdisj r c h hc]
  uncovered r c hc := by
    obtain ⟨h1, h2⟩ := not_or.1 (mt (hboth r c).2 hc)
    rw [hqu.uncovered r c h2, hpq.uncovered r c h1]
  hit_iff := by
    have hold : ∀ r c, second r c ∧ q.1[r][c] = true ↔ second r c ∧ p.1[r][c] = true := fun r c =>
      and_congr_right fun hc => by rw [hpq.uncovered r c fun h => hdisj r c h hc]
    simp only [hqu.hit_iff, hpq.hit_iff, hold, hboth, or_and_right, exists_or, or_assoc]

/-- One pixel covers its own cell where its bit is 1, and no cell where it is 0. -/
theorem drawPixel_toggles (x : Nat) (row : Fin 32) (byte : Byte) (p : Framebuffer × Bool) (b : Nat) :
    Toggles (fun r c => row = r ∧ Fin.ofNat 64 (x + b) = c ∧ spriteBit byte b = true) p
      (drawPixel x row byte p b) where
  covered r c hc := by
    obtain ⟨hrow, hcol, hbit⟩ := hc
    rw [drawPixel_cell, if_pos ⟨hrow, hcol⟩, hbit, Bool.xor_true]
  uncovered r c hc := by
    rw [drawPixel_cell]
    split
    case isTrue hcell =>
      obtain ⟨hrow, hcol⟩ := hcell
      have hbit : spriteBit byte b = false := Bool.eq_false_of_not_eq_true fun hbit => hc ⟨hrow, hcol, hbit⟩
      rw [hbit, Bool.xor_false]
    case isFalse => rfl
  hit_iff := by simp [drawPixel_hit]

/-- Different offsets below 64 fall on different columns. -/
theorem foldl_drawPixel_toggles (x : Nat) (row : Fin 32) (byte : Byte) {offsets : List Nat}
    (hlt : ∀ b ∈ offsets, b < 64) (hnodup : offsets.Nodup) (p : Framebuffer × Bool) :
    Toggles (fun r c => row = r ∧ ∃ b ∈ offsets, Fin.ofNat 64 (x + b) = c ∧ spriteBit byte b = true) p
      (offsets.foldl (drawPixel x row byte) p) := by
  induction offsets generalizing p with
  | nil => exact Toggles.of_not_covers (by simp) p
  | cons b offsets ih =>
    obtain ⟨hb, hlt⟩ := List.forall_mem_cons.1 hlt
    obtain ⟨hnot, hnodup⟩ := List.nodup_cons.1 hnodup
    refine (drawPixel_toggles x row byte p b).trans (ih hlt hnodup _) ?_ (by simp [and_or_left])
    rintro r c ⟨-, hcol, -⟩ ⟨-, b', hb', hcol', -⟩
    have hsame : (x + b) % 64 = (x + b') % 64 := congrArg Fin.val (hcol.trans hcol'.symm)
    have hb'lt : b' < 64 := hlt b' hb'
    exact hnot ((show b = b' by omega) ▸ hb')

/-- A 1 bit of the byte, drawn from column `x` on, falls on the column (42_display.md R152). -/
def RowCovers (x : Nat) (byte : Byte) (col : Fin 64) : Prop :=
  ∃ b, b < 8 ∧ (x + b) % 64 = col.val ∧ spriteBit byte b = true

theorem drawRow_toggles (x : Nat) (row : Fin 32) (byte : Byte) (p : Framebuffer × Bool) :
    Toggles (fun r c => row = r ∧ RowCovers x byte c) p (drawRow x row byte p) :=
  (foldl_drawPixel_toggles x row byte (offsets := List.range 8) (by decide) List.nodup_range p).congr
    fun r c => by simp [RowCovers, Fin.ext_iff]

/-- A 1 bit of the sprite, drawn from column `x` and row `y` on, falls on the cell: `SpriteCovers`, of bytes already read
from memory. -/
def BytesCover (bytes : List Byte) (x y : Nat) (row : Fin 32) (col : Fin 64) : Prop :=
  ∃ k byte, bytes[k]? = some byte ∧ (y + k) % 32 = row.val ∧ RowCovers x byte col

theorem bytesCover_nil (x y : Nat) (row : Fin 32) (col : Fin 64) : ¬ BytesCover [] x y row col := by
  simp [BytesCover]

theorem bytesCover_cons (byte : Byte) (bytes : List Byte) (x y : Nat) (row : Fin 32) (col : Fin 64) :
    BytesCover (byte :: bytes) x y row col ↔
      (Fin.ofNat 32 y = row ∧ RowCovers x byte col) ∨ BytesCover bytes x (y + 1) row col := by
  constructor
  · rintro ⟨k, byte', hk, hrow, hcol⟩
    cases k with
    | zero =>
      obtain rfl : byte = byte' := by simpa using hk
      exact .inl ⟨Fin.ext hrow, hcol⟩
    | succ k => exact .inr ⟨k, byte', by simpa using hk, by omega, hcol⟩
  · rintro (⟨hrow, hcol⟩ | ⟨k, byte', hk, hrow, hcol⟩)
    · exact ⟨0, byte, rfl, congrArg Fin.val hrow, hcol⟩
    · exact ⟨k + 1, byte', by simpa using hk, by omega, hcol⟩

theorem bytesCover_readBytes (m : Memory) (i x y n : Nat) (row : Fin 32) (col : Fin 64) :
    BytesCover (Memory.readBytes m i n) x y row col ↔ SpriteCovers m i x y n row col := by
  constructor
  · rintro ⟨k, byte, hk, hrow, b, hb, hcol, hbit⟩
    obtain ⟨hlt, rfl⟩ := List.getElem?_eq_some_iff.1 hk
    rw [Memory.getElem_readBytes] at hbit
    exact ⟨k, b, by simpa using hlt, hb, hrow, hcol, of_decide_eq_true hbit⟩
  · rintro ⟨k, b, hk, hb, hrow, hcol, hbit⟩
    exact ⟨k, _, Memory.getElem?_readBytes m i hk, hrow, b, hb, hcol, decide_eq_true hbit⟩

/-- At most 32 rows fall on different rows of the framebuffer. -/
theorem drawRows_toggles (x y : Nat) {bytes : List Byte} (hlen : bytes.length ≤ 32) (p : Framebuffer × Bool) :
    Toggles (BytesCover bytes x y) p (drawRows x y bytes p) := by
  induction bytes generalizing y p with
  | nil => exact Toggles.of_not_covers (bytesCover_nil x y) p
  | cons byte bytes ih =>
    rw [List.length_cons] at hlen
    refine (drawRow_toggles x (Fin.ofNat 32 y) byte p).trans (ih (y + 1) (Nat.le_of_succ_le hlen) _) ?_
      (bytesCover_cons byte bytes x y)
    rintro r c ⟨rfl, -⟩ ⟨k, byte', hk, hrow, -⟩
    have hklt : k < bytes.length := (List.getElem?_eq_some_iff.1 hk).1
    rw [Fin.val_ofNat] at hrow
    omega

theorem drawSprite_toggles (fb : Framebuffer) (x y : Nat) {bytes : List Byte} (hlen : bytes.length ≤ 32) :
    Toggles (BytesCover bytes x y) (fb, false) (drawSprite fb x y bytes) :=
  drawRows_toggles x y hlen (fb, false)

/-! DRW where its range lies in memory, and where it does not (42_display.md R157). -/

theorem execDrw_of_le {x y : Reg} {n : Count} {s : State} (hin : dataAddr s + n.val ≤ 4096) :
    ∃ q, Toggles (SpriteCovers s.mem (dataAddr s) (s.getV x).toNat (s.getV y).toNat n.val) (s.fb, false) q ∧
      execDrw x y n s = .next (({ s with fb := q.1 } : State).setV flagReg (bitByte q.2)).advance := by
  have hlen : (Memory.readBytes s.mem (dataAddr s) n.val).length ≤ 32 := by
    rw [Memory.length_readBytes]
    omega
  exact ⟨_, (drawSprite_toggles s.fb _ _ hlen).congr fun r c => (bytesCover_readBytes ..).symm,
    (execDrw_eq_next_iff x y n s _).2 (.inr ⟨_, (memRead_ok_iff ..).2 ⟨hin, rfl⟩, rfl⟩)⟩

theorem execDrw_of_gt {x y : Reg} {n : Count} {s : State} (hout : dataAddr s + n.val > 4096) :
    execDrw x y n s = .next (s.raise (.address (dataAddr s) n.val .read)) :=
  (execDrw_eq_next_iff x y n s _).2 (.inl ⟨_, (memRead_error_iff ..).2 ⟨hout, rfl⟩, rfl⟩)

end Sys2Proof.Machine
end

section
namespace Sys2Proof.Proofs

open Sys2Proof.Machine

/-- Settles O48: the sprite loop toggles the covered cells, its collision bit is the flag, and a range that leaves memory
is the fault of the read. -/
theorem drwTogglesCoveredCells : Obligations.DrwTogglesCoveredCells := by
  refine fun s x y n => ⟨decodeWord_of_encode_eq rfl rfl, fun hin => ?_, fun hout => ⟨_, execDrw_of_gt hout, rfl⟩⟩
  obtain ⟨q, hq, hexec⟩ := execDrw_of_le (x := x) (y := y) hin
  refine ⟨_, hexec, fun r c => ⟨hq.covered r c, hq.uncovered r c⟩, ?_, ?_, rfl,
    ((Frame.withFb s q.1).trans (Frame.setV _ flagReg _)).jumpTo _⟩
  · rw [State.advance_getV, State.setV_getV_same]
    exact (bitByte_eq_one_iff q.2).trans (hq.hit_iff.trans (or_iff_right Bool.false_ne_true))
  · rw [State.advance_getV, State.setV_getV_same]
    exact bitByte_eq_or q.2

end Sys2Proof.Proofs
end

section
/-! SUPPORT. An instruction that faults changes nothing but the halt record (60_exceptions.md R217), and what a step
makes of the state its instruction leaves (30_encoding.md R73). -/

namespace Sys2Proof.Machine

theorem State.storeAtI_fault_or_raise (s : State) (bs : List Byte) :
    (s.storeAtI bs).fault = s.fault ∨ ∃ f, s.storeAtI bs = s.raise f := by
  obtain ⟨m, -, h⟩ | ⟨e, -, h⟩ := s.storeAtI_cases bs
  · exact .inl (h ▸ rfl)
  · exact .inr ⟨e, h⟩

theorem State.skipOnKey_fault_or_raise (s : State) (x : Reg) (want : Bool) :
    (s.skipOnKey x want).fault = s.fault ∨ ∃ f, s.skipOnKey x want = s.raise f := by
  obtain ⟨k, -, h⟩ | ⟨-, h⟩ := s.skipOnKey_cases x want
  · exact .inl (h ▸ rfl)
  · exact .inr ⟨_, h⟩

@[simp] theorem State.rndWith_fault (s : State) (r : Byte) (x : Reg) (kk : Byte) :
    (s.rndWith r x kk).fault = s.fault := rfl

/-- An instruction keeps the halt record or takes its fault at the state it started from. Only seven can fault, each on
one of its two branches. -/
theorem exec_fault_or_raise {i : Instr} {s t : State} (h : exec i s = .next t) :
    t.fault = s.fault ∨ ∃ f, t = s.raise f := by
  cases i with
  | ret =>
    obtain ⟨-, rfl⟩ | ⟨target, -, rfl⟩ := (execRet_eq_next_iff s t).1 h
    · exact .inr ⟨_, rfl⟩
    · exact .inl rfl
  | drw x y n =>
    obtain ⟨e, -, rfl⟩ | ⟨bytes, -, rfl⟩ := (execDrw_eq_next_iff x y n s t).1 h
    · exact .inr ⟨e, rfl⟩
    · exact .inl rfl
  | ldVMem x =>
    obtain ⟨e, -, rfl⟩ | ⟨bs, -, rfl⟩ := (execLdVMem_eq_next_iff x s t).1 h
    · exact .inr ⟨e, rfl⟩
    · exact .inl rfl
  | ldB | ldMemV =>
    obtain rfl := Host.Outcome.next.inj h
    exact s.storeAtI_fault_or_raise _
  | skp | sknp =>
    obtain rfl := Host.Outcome.next.inj h
    exact s.skipOnKey_fault_or_raise _ _
  | ldVxK x =>
    obtain ⟨-, rfl⟩ | ⟨k, -, rfl⟩ := (execLdVxK_eq_next_iff x s t).1 h
    · exact .inl rfl
    · exact .inl rfl
  | _ =>
    obtain rfl := Host.Outcome.next.inj h
    exact .inl (by simp)

/-- A step that runs an instruction goes on to the tick, unless the instruction faulted (30_encoding.md R73). -/
theorem step_of_exec {s u : State} {i : Instr} (hfetch : FetchesInstr s i) (hexec : exec i s = .next u) :
    step s = .next (if u.fault = none then u.tick else u) := by
  obtain ⟨hrun, w, hw, hdecode⟩ := hfetch
  exact (step_eq_next_iff s _).2 (.inr (.inr (.inr ⟨hrun, w, i, u, hw, hdecode, hexec, rfl⟩)))

/-- An instruction that keeps the halt record is ticked, since a core that fetches has none. -/
theorem step_of_exec_of_fault_eq {s u : State} {i : Instr} (hfetch : FetchesInstr s i) (hexec : exec i s = .next u)
    (hfault : u.fault = s.fault) : step s = .next u.tick := by
  rw [step_of_exec hfetch hexec, if_pos (hfault.trans hfetch.1)]

theorem step_of_halted {s : State} (hhalted : s.fault ≠ none) : step s = .next s :=
  (step_eq_next_iff s s).2 (.inl ⟨hhalted, rfl⟩)

end Sys2Proof.Machine
end

section
/-! SUPPORT. The word of `Fx18` for a core without it. -/

namespace Sys2Proof

open Sys2Proof.Laws

/-- Where `HAS_FX18` is false, the word of `Fx18` is in no row of family F (43_keys_timers.md R179). -/
theorem decodeWordWith_false_encode_ldStVx (x : Reg) :
    decodeWordWith false (encode (.ldStVx x)) = .error (.miscFamily (encode (.ldStVx x))) := by
  simp [encode, decodeWordWith, decodeMisc, fieldOp_opXKk, bitField_kk_opXKk, -bitField_kk]

end Sys2Proof
end

section
/-! SUPPORT. The key that a register value names, the lowest pressed key, and what a timer's setter leaves unchanged. -/

namespace Sys2Proof.Machine

/-- A key test whose register names the key `k` (43_keys_timers.md R171). -/
theorem State.skipOnKey_of_toNat_eq {s : State} {x : Reg} {k : KeyIdx} (hk : (s.getV x).toNat = k.val) (want : Bool) :
    s.skipOnKey x want = s.skipIf (s.key[k] == want) := by
  rw [State.skipOnKey, (keyOf_eq_some_iff _ k).2 hk]

/-- A key test whose register names no key (60_exceptions.md R214). -/
theorem State.skipOnKey_of_ge {s : State} {x : Reg} (hge : 16 ≤ (s.getV x).toNat) (want : Bool) :
    s.skipOnKey x want = s.raise (.keyIndex (s.getV x)) := by
  rw [State.skipOnKey, (keyOf_eq_none_iff _).2 hge]

theorem exec_skp_eq (x : Reg) (s : State) : exec (.skp x) s = .next (s.skipOnKey x true) := rfl

theorem exec_sknp_eq (x : Reg) (s : State) : exec (.sknp x) s = .next (s.skipOnKey x false) := rfl

/-- `first_pressed` answers the lowest pressed key (43_keys_timers.md R172). -/
theorem firstPressed_eq_some_iff (key : Vector Bool 16) (k : KeyIdx) :
    firstPressed key = some k ↔ key[k] = true ∧ ∀ j : KeyIdx, j < k → key[j] = false := by
  rw [firstPressed, ← Fin.find?_eq_find?_finRange, Fin.find?_eq_some_iff]

theorem Frame.withDt (s : State) (b : Byte) : Frame [] [.dt] s { s with dt := b } :=
  ⟨fun _ _ => rfl, fun p hp => by cases p <;> simp_all [Part.Same]⟩

theorem Frame.withSt (s : State) (b : Byte) : Frame [] [.st] s { s with st := b } :=
  ⟨fun _ _ => rfl, fun p hp => by cases p <;> simp_all [Part.Same]⟩

end Sys2Proof.Machine
end

section
namespace Sys2Proof.Proofs

open Sys2Proof.Machine

/-- Settles O20: an instruction that does not fault is ticked, and one that does leaves the timers of the state it
started from. -/
theorem tickEndsEveryExecutedStep : Obligations.TickEndsEveryExecutedStep := by
  refine ⟨fun s u i hfetch hexec => ⟨_, step_of_exec hfetch hexec, fun hnone => ?_, fun hsome => ?_⟩,
    fun s t hhalted hstep => ?_⟩
  · rw [if_pos hnone]
    exact ⟨rfl, toNat_countDown u.dt, toNat_countDown u.st⟩
  · rw [if_neg hsome]
    obtain hkept | ⟨f, rfl⟩ := exec_fault_or_raise hexec
    · exact absurd (hkept.trans hfetch.1) hsome
    · exact ⟨rfl, rfl⟩
  · obtain rfl := Host.Outcome.next.inj ((step_of_halted hhalted).symm.trans hstep)
    exact ⟨rfl, rfl⟩

/-- Settles O50: a value below 16 names its key, and the test is a skip on that key's state; any other value names
none. -/
theorem keySkipsTestTheNamedKey : Obligations.KeySkipsTestTheNamedKey := by
  refine fun s x => ⟨decodeWord_of_encode_eq rfl rfl, decodeWord_of_encode_eq rfl rfl, fun k hk => ⟨?_, ?_⟩,
    fun hge => ⟨⟨_, exec_skp_eq x s, State.skipOnKey_of_ge hge true⟩,
      _, exec_sknp_eq x s, State.skipOnKey_of_ge hge false⟩⟩
  · exact exec_skips (congrArg Host.Outcome.next (State.skipOnKey_of_toNat_eq hk true)) beq_iff_eq
  · exact exec_skips (congrArg Host.Outcome.next (State.skipOnKey_of_toNat_eq hk false)) beq_iff_eq

/-- Settles O51: one register write of DT, and the tick after it leaves the register alone. -/
theorem ldVxDtReadsBeforeTick : Obligations.LdVxDtReadsBeforeTick := fun s x =>
  ⟨decodeWord_of_encode_eq rfl rfl, exec_setsV rfl, fun hfetch =>
    ⟨_, step_of_exec_of_fault_eq hfetch rfl rfl, State.setV_getV_same s x s.dt, toNat_countDown s.dt⟩⟩

/-- Settles O52: `first_pressed` answers the lowest pressed key, which is one register write, or none, which leaves the
state to the tick. -/
theorem ldVxKTakesLowestOrWaits : Obligations.LdVxKTakesLowestOrWaits := by
  refine fun s x => ⟨decodeWord_of_encode_eq rfl rfl, fun k hk hlow => ?_, fun hidle => ?_⟩
  · have hfirst : firstPressed s.key = some k := (firstPressed_eq_some_iff _ k).2 ⟨hk, hlow⟩
    obtain ⟨t, hexec, hresult, hrest⟩ :=
      exec_setsV (i := .ldVxK x) ((execLdVxK_eq_next_iff x s _).2 (.inr ⟨k, hfirst, rfl⟩))
    refine ⟨t, hexec, ?_, hrest⟩
    rw [hresult, BitVec.toNat_ofNat]
    omega
  · have hwait : exec (.ldVxK x) s = .next s :=
      (execLdVxK_eq_next_iff x s s).2 (.inl ⟨(firstPressed_eq_none_iff _).2 hidle, rfl⟩)
    exact ⟨hwait, fun hfetch =>
      ⟨s.tick, step_of_exec_of_fault_eq hfetch hwait rfl, rfl, toNat_countDown s.dt, toNat_countDown s.st⟩⟩

/-- Settles O53: the timer that the tick counts down is the one just set. -/
theorem ldDtVxSetsThenTicks : Obligations.LdDtVxSetsThenTicks := fun s _ =>
  ⟨decodeWord_of_encode_eq rfl rfl, ⟨_, rfl, rfl, rfl, (Frame.withDt s _).jumpTo _⟩, fun hfetch =>
    ⟨_, step_of_exec_of_fault_eq hfetch rfl rfl, toNat_countDown _⟩⟩

/-- Settles O54: as for DT; without `HAS_FX18` the word is in no row of family F. -/
theorem ldStVxSetsThenTicks : Obligations.LdStVxSetsThenTicks := fun s x =>
  ⟨decodeWord_of_encode_eq rfl rfl, decodeWordWith_false_encode_ldStVx x,
    ⟨_, rfl, rfl, rfl, (Frame.withSt s _).jumpTo _⟩, fun hfetch =>
    ⟨_, step_of_exec_of_fault_eq hfetch rfl rfl, toNat_countDown _⟩⟩

end Sys2Proof.Proofs
end

section
/-! SUPPORT. The address register and memory as parts of the state, the three digits as numbers, and what a store at `I`
and a block load do on each side of the end of memory (44_index_memory.md). -/

namespace Sys2Proof.Machine

/-! What a change of `I`, of memory and of the register file leaves unchanged. -/

theorem Frame.withI (s : State) (w : Word) : Frame [] [.i] s { s with i := w } :=
  ⟨fun _ _ => rfl, fun p hp => by cases p <;> simp_all [Part.Same]⟩

theorem Frame.withMem (s : State) (m : Memory) : Frame [] [.mem] s { s with mem := m } :=
  ⟨fun _ _ => rfl, fun p hp => by cases p <;> simp_all [Part.Same]⟩

theorem Frame.withV {regs : List Reg} {s : State} {v : Vector Byte 16} (h : ∀ r : Reg, r ∉ regs → v[r] = s.v[r]) :
    Frame regs [] s { s with v := v } :=
  ⟨h, fun p _ => by cases p <;> simp [Part.Same]⟩

/-- An instruction that ends in one write of `I` and the advance: no flag (44_index_memory.md R190 to R192). -/
theorem exec_setsI {i : Instr} {s : State} {w : Word} {n : Nat}
    (hexec : exec i s = .next ({ s with i := w } : State).advance) (hw : w.toNat = n) :
    ∃ t, exec i s = .next t ∧ t.i.toNat = n ∧ t.pc = s.pc + 2#16 ∧ Frame [] [.i] s t :=
  ⟨_, hexec, hw, rfl, (Frame.withI s w).jumpTo _⟩

/-! The digits of a byte: each is below 10, so none is cut to fit (44_index_memory.md R193). -/

theorem toNat_bcdDigits_hundreds (b : Byte) : (bcdDigits b)[0].toNat = b.toNat / 100 := by
  have hb := b.isLt
  simp [bcdDigits]; omega

theorem toNat_bcdDigits_tens (b : Byte) : (bcdDigits b)[1].toNat = b.toNat / 10 % 10 := by
  simp [bcdDigits]; omega

theorem toNat_bcdDigits_ones (b : Byte) : (bcdDigits b)[2].toNat = b.toNat % 10 := by
  simp [bcdDigits]; omega

/-! A store at `I` (20_memory.md R52). -/

/-- A store at `I` whose range leaves memory is the fault of the write, at the state it started from. -/
theorem State.storeAtI_of_gt {s : State} {bs : List Byte} (h : dataAddr s + bs.length > 4096) :
    s.storeAtI bs = s.raise (.address (dataAddr s) bs.length .write) := by
  rw [State.storeAtI, (memWrite_error_iff _ _ _ _).2 ⟨h, rfl⟩]

/-- An instruction that is a store at `I`, its range in memory: each byte is read back at its address, and nothing but
those bytes and the pc changes. -/
theorem exec_storesAtI {i : Instr} {s : State} {bs : List Byte} (hexec : exec i s = .next (s.storeAtI bs))
    (hm : Memory.wf s.mem) (hin : dataAddr s + bs.length ≤ 4096) :
    ∃ t, exec i s = .next t ∧ (∀ k (hk : k < bs.length), Memory.read t.mem (dataAddr s + k) = bs[k]) ∧
      SameOutside (dataAddr s) bs.length s t ∧ t.pc = s.pc + 2#16 ∧ Frame [] [.mem] s t :=
  ⟨_, hexec.trans (congrArg _ (State.storeAtI_of_le hin)),
    fun _ hk => Memory.read_writeBytes_same s.mem _ bs hm.1 hk,
    fun _ => Memory.read_writeBytes_other s.mem bs, rfl, (Frame.withMem s _).jumpTo _⟩

theorem exec_haltsStoringAtI {i : Instr} {s : State} {bs : List Byte} (hexec : exec i s = .next (s.storeAtI bs))
    (hout : dataAddr s + bs.length > 4096) :
    ∃ t, exec i s = .next t ∧ HaltedWith (.address (dataAddr s) bs.length .write) s t :=
  ⟨_, hexec, State.storeAtI_of_gt hout⟩

theorem exec_ldB_eq (x : Reg) (s : State) : exec (.ldB x) s = .next (s.storeAtI (bcdDigits (s.getV x))) := rfl

/-! A block load (44_index_memory.md R195). -/

theorem getElem_loadBlock_readBytes_of_lt (v : Vector Byte 16) (m : Memory) (a : Nat) {n : Nat} {r : Reg}
    (hr : r.val < n) : (loadBlock v (Memory.readBytes m a n))[r] = Memory.read m (a + r.val) := by
  rw [getElem_loadBlock, dif_pos (by rwa [Memory.length_readBytes]), Memory.getElem_readBytes]

theorem getElem_loadBlock_readBytes_of_ge (v : Vector Byte 16) (m : Memory) (a : Nat) {n : Nat} {r : Reg}
    (hr : n ≤ r.val) : (loadBlock v (Memory.readBytes m a n))[r] = v[r] := by
  rw [getElem_loadBlock, dif_neg (by rwa [Memory.length_readBytes, Nat.not_lt])]

theorem execLdVMem_of_le {x : Reg} {s : State} (hin : dataAddr s + (x.val + 1) ≤ 4096) :
    execLdVMem x s =
      .next ({ s with v := loadBlock s.v (Memory.readBytes s.mem (dataAddr s) (x.val + 1)) } : State).advance :=
  (execLdVMem_eq_next_iff x s _).2 (.inr ⟨_, (memRead_ok_iff ..).2 ⟨hin, rfl⟩, rfl⟩)

theorem execLdVMem_of_gt {x : Reg} {s : State} (hout : dataAddr s + (x.val + 1) > 4096) :
    execLdVMem x s = .next (s.raise (.address (dataAddr s) (x.val + 1) .read)) :=
  (execLdVMem_eq_next_iff x s _).2 (.inl ⟨_, (memRead_error_iff ..).2 ⟨hout, rfl⟩, rfl⟩)

end Sys2Proof.Machine
end

section
namespace Sys2Proof.Proofs

open Sys2Proof.Machine

/-- Settles O55: one write of `I`, the address extended by zeros. -/
theorem ldISetsIndex : Obligations.LdISetsIndex := fun _ nnn =>
  ⟨decodeWord_of_encode_eq rfl rfl, exec_setsI rfl (toNat_zext16 nnn)⟩

/-- Settles O56: one write of `I`, the sum cut to 16 bits. -/
theorem addIWrapsAtSixteenBits : Obligations.AddIWrapsAtSixteenBits := fun s _ =>
  ⟨decodeWord_of_encode_eq rfl rfl, exec_setsI rfl (toNat_indexSum s.i _)⟩

/-- Settles O57: one write of `I`, a product that 16 bits hold. -/
theorem ldFPointsAtGlyph : Obligations.LdFPointsAtGlyph := fun _ _ =>
  ⟨decodeWord_of_encode_eq rfl rfl, exec_setsI rfl (toNat_glyphAddr _)⟩

/-- Settles O58: a store of the three digits at `I`, each read back as the number it is. -/
theorem ldBStoresDigits : Obligations.LdBStoresDigits := by
  refine fun s x => ⟨decodeWord_of_encode_eq rfl rfl, fun hm hin => ?_, exec_haltsStoringAtI (exec_ldB_eq x s)⟩
  obtain ⟨t, hexec, hread, hrest⟩ := exec_storesAtI (exec_ldB_eq x s) hm hin
  exact ⟨t, hexec, (congrArg BitVec.toNat (hread 0 (by simp))).trans (toNat_bcdDigits_hundreds _),
    (congrArg BitVec.toNat (hread 1 (by simp))).trans (toNat_bcdDigits_tens _),
    (congrArg BitVec.toNat (hread 2 (by simp))).trans (toNat_bcdDigits_ones _), hrest⟩

/-- Settles O59: a store at `I` of the block V0 to V[x], whose length is `x + 1` and whose byte `r` is `V[r]`. -/
theorem ldMemVStoresBlock : Obligations.LdMemVStoresBlock := by
  intro s x
  have hlen : (regBlock s x).length = x.val + 1 := length_regBlock s x
  rw [← hlen]
  refine ⟨decodeWord_of_encode_eq rfl rfl, fun hm hin => ?_, exec_haltsStoringAtI (exec_ldMemV_eq x s)⟩
  obtain ⟨t, hexec, hread, hrest⟩ := exec_storesAtI (exec_ldMemV_eq x s) hm hin
  refine ⟨t, hexec, fun r hr => ?_, hrest⟩
  rw [hread r.val (hlen ▸ Nat.lt_succ_of_le hr), getElem_regBlock]

/-- Settles O60: registers up to V[x] take the bytes read, and the ones past it lie past the end of the block. -/
theorem ldVMemLoadsBlock : Obligations.LdVMemLoadsBlock := by
  refine fun s x => ⟨decodeWord_of_encode_eq rfl rfl, fun hin => ?_, fun hout => ⟨_, execLdVMem_of_gt hout, rfl⟩⟩
  refine ⟨_, execLdVMem_of_le hin, fun r hr => ?_, rfl, (Frame.withV fun r hr => ?_).jumpTo _⟩
  · exact getElem_loadBlock_readBytes_of_lt s.v s.mem _ (Nat.lt_succ_of_le hr)
  · have hpast : x < r := by simpa using hr
    exact getElem_loadBlock_readBytes_of_ge s.v s.mem _ hpast

end Sys2Proof.Proofs
end

section
/-! SUPPORT. A halted core along a run (60_exceptions.md R218), the state a faulting step leaves (R217), and the cause
that is due in every branch of an instruction and of a step (R215). -/

namespace Sys2Proof.Machine

theorem core_run_of_halted {s : State} (hhalted : s.fault ≠ none) (k : Nat) : core.run k s = .next s := by
  induction k with
  | zero => exact run_zero core s
  | succ k ih => rw [core_run_succ k (step_of_halted hhalted), ih]

/-- A step of a running core ends without a fault or is a fault entry at the start-of-step state; `fetchedWord` is the
word known in each of the three branches that fault. -/
theorem step_fault_or_raise {s t : State} (hrun : s.fault = none) (hstep : step s = .next t) :
    t.fault = none ∨ ∃ f, t = s.raise f := by
  obtain ⟨hhalted, -⟩ | ⟨-, f, hfetch, rfl⟩ | ⟨-, w, e, hfetch, -, rfl⟩ | ⟨-, w, i, u, -, -, hexec, rfl⟩ :=
    (step_eq_next_iff s t).1 hstep
  · exact absurd hrun hhalted
  · exact .inr ⟨f, by rw [State.raise, fetchedWord_of_error hfetch]⟩
  · exact .inr ⟨.decode, by rw [State.raise, fetchedWord_of_ok hfetch]⟩
  · obtain hkept | ⟨f, rfl⟩ := exec_fault_or_raise hexec
    · exact .inl (by simp [hkept, hrun])
    · exact .inr ⟨f, by simp⟩

/-! The cause recorded by each operation that can fault, at a state without a fault. -/

theorem State.storeAtI_fault_cause {s : State} (hrun : s.fault = none) (bs : List Byte) :
    (s.storeAtI bs).fault.map FaultRecord.cause =
      if dataAddr s + bs.length > 4096 then some (.address (dataAddr s) bs.length .write) else none := by
  split
  next hout => rw [State.storeAtI_of_gt hout]; rfl
  next hin => rw [State.storeAtI_of_le (Nat.not_lt.1 hin)]; simp [hrun]

theorem State.skipOnKey_fault_cause {s : State} (hrun : s.fault = none) (x : Reg) (want : Bool) :
    (s.skipOnKey x want).fault.map FaultRecord.cause =
      if (s.getV x).toNat ≥ 16 then some (.keyIndex (s.getV x)) else none := by
  split
  next hge => rw [State.skipOnKey_of_ge hge]; rfl
  next hlt => rw [State.skipOnKey_of_toNat_eq (k := ⟨_, Nat.not_le.1 hlt⟩) rfl]; simp [hrun]

theorem execRet_fault_cause {s t : State} (hrun : s.fault = none) (h : execRet s = .next t) :
    t.fault.map FaultRecord.cause = ownFault .ret s := by
  obtain ⟨hempty, rfl⟩ | ⟨target, htop, rfl⟩ := (execRet_eq_next_iff s t).1 h
  · simp [ownFault, List.getLast?_eq_none_iff.1 hempty]
  · have hne : s.stack ≠ [] := fun hnil => by simp [hnil] at htop
    simp [ownFault, hne, hrun]

theorem execDrw_fault_cause {x y : Reg} {n : Count} {s t : State} (hrun : s.fault = none)
    (h : execDrw x y n s = .next t) : t.fault.map FaultRecord.cause = ownFault (.drw x y n) s := by
  obtain ⟨e, he, rfl⟩ | ⟨bytes, hbytes, rfl⟩ := (execDrw_eq_next_iff x y n s t).1 h
  · obtain ⟨hout, rfl⟩ := (memRead_error_iff ..).1 he
    exact (if_pos hout).symm
  · obtain ⟨hin, -⟩ := (memRead_ok_iff ..).1 hbytes
    rw [(ownFault_drw_eq_none_iff x y n s).2 hin]
    simp [hrun]

theorem execLdVMem_fault_cause {x : Reg} {s t : State} (hrun : s.fault = none) (h : execLdVMem x s = .next t) :
    t.fault.map FaultRecord.cause = ownFault (.ldVMem x) s := by
  obtain ⟨e, he, rfl⟩ | ⟨bs, hbs, rfl⟩ := (execLdVMem_eq_next_iff x s t).1 h
  · obtain ⟨hout, rfl⟩ := (memRead_error_iff ..).1 he
    exact (if_pos hout).symm
  · obtain ⟨hin, -⟩ := (memRead_ok_iff ..).1 hbs
    rw [(ownFault_ldVMem_eq_none_iff x s).2 hin]
    simp [hrun]

/-- An instruction records exactly its own fault where that is due, and none elsewhere. The seven that can fault do so
in the operation they share or in their own branch; the rest have no fault and keep the record. -/
theorem exec_fault_cause {i : Instr} {s t : State} (hrun : s.fault = none) (h : exec i s = .next t) :
    t.fault.map FaultRecord.cause = ownFault i s := by
  cases i with
  | ret => exact execRet_fault_cause hrun h
  | drw x y n => exact execDrw_fault_cause hrun h
  | ldVMem x => exact execLdVMem_fault_cause hrun h
  | ldB x =>
    obtain rfl := Host.Outcome.next.inj h
    have hbound : dataAddr s + 3 > 4096 ↔ s.i.toNat ≥ 4094 := by rw [dataAddr]; omega
    exact (State.storeAtI_fault_cause hrun _).trans (if_congr hbound rfl rfl)
  | ldMemV x =>
    obtain rfl := Host.Outcome.next.inj h
    rw [State.storeAtI_fault_cause hrun, length_regBlock]
    rfl
  | skp x | sknp x =>
    obtain rfl := Host.Outcome.next.inj h
    exact State.skipOnKey_fault_cause hrun x _
  | ldVxK x =>
    obtain ⟨-, rfl⟩ | ⟨k, -, rfl⟩ := (execLdVxK_eq_next_iff x s t).1 h <;> simp [ownFault, hrun]
  | _ =>
    obtain rfl := Host.Outcome.next.inj h
    simp [ownFault, hrun]

/-! The due fault, by what the fetch and the decode answer (60_exceptions.md R215). -/

theorem dueFault_of_fetchWord_error {s : State} {f : Fault} (hfetch : fetchWord s = .error f) :
    dueFault s = some f := by
  obtain ⟨hpc, rfl⟩ := (fetchWord_error_iff s f).1 hfetch
  exact if_pos hpc

theorem dueFault_of_decodeWord_error {s : State} {w : Word} {e : DecodeError} (hfetch : fetchWord s = .ok w)
    (hdecode : decodeWord w = .error e) : dueFault s = some .decode := by
  obtain ⟨hpc, rfl⟩ := (fetchWord_ok_iff s w).1 hfetch
  rw [dueFault, if_neg (by omega), hdecode]

theorem dueFault_of_decodeWord_ok {s : State} {w : Word} {i : Instr} (hfetch : fetchWord s = .ok w)
    (hdecode : decodeWord w = .ok i) : dueFault s = ownFault i s := by
  obtain ⟨hpc, rfl⟩ := (fetchWord_ok_iff s w).1 hfetch
  rw [dueFault, if_neg (by omega), hdecode]

/-- The cause a step of a running core records, branch by branch; the tick keeps the record. -/
theorem step_fault_cause {s t : State} (hrun : s.fault = none) (hstep : step s = .next t) :
    t.fault.map FaultRecord.cause = dueFault s := by
  obtain ⟨hhalted, -⟩ | ⟨-, f, hfetch, rfl⟩ | ⟨-, w, e, hfetch, hdecode, rfl⟩ |
    ⟨-, w, i, u, hfetch, hdecode, hexec, rfl⟩ := (step_eq_next_iff s t).1 hstep
  · exact absurd hrun hhalted
  · exact (dueFault_of_fetchWord_error hfetch).symm
  · exact (dueFault_of_decodeWord_error hfetch hdecode).symm
  · rw [dueFault_of_decodeWord_ok hfetch hdecode, ← exec_fault_cause hrun hexec]
    split <;> rfl

end Sys2Proof.Machine
end

section
namespace Sys2Proof.Proofs

open Sys2Proof.Machine

/-- Settles O9: induction on the number of steps, each of which answers the same state; the setter writes KEY alone. -/
theorem haltedCoreIsAbsorbing : Obligations.HaltedCoreIsAbsorbing := fun s hhalted =>
  ⟨core_run_of_halted hhalted, State.setKey_fault s, State.hostResetWith_fault font s⟩

/-- Settles O10: the step is a fault entry at the start-of-step state, and its word is what the fetch answered. -/
theorem faultingStepChangesOnlyFault : Obligations.FaultingStepChangesOnlyFault := by
  intro s t r hrun hstep hfault
  obtain hnone | ⟨f, rfl⟩ := step_fault_or_raise hrun hstep
  · exact absurd (hnone.symm.trans hfault) (by simp)
  · obtain rfl := Option.some.inj hfault
    exact ⟨rfl, rfl, rfl, fun _ => fetchedWord_of_ok, fun _ => fetchedWord_of_error⟩

/-- Settles O11: the fetch's fault, the decode's or the instruction's own, as `dueFault` orders them. -/
theorem stepRaisesExactlyTheDueFault : Obligations.StepRaisesExactlyTheDueFault :=
  ⟨fun _ _ => step_fault_cause, fun _ _ _ => rfl, rfl, rfl, fun _ => rfl⟩

end Sys2Proof.Proofs
end

section
/-! SUPPORT. The byte a reset leaves at an address inside and past the glyphs, the fixed parts of the reset state, and
what a ROM load does on each side of the end of memory (70_reset_and_hazards.md R241 to R243). -/

namespace Sys2Proof.Machine

/-! The reset contents of memory (70_reset_and_hazards.md R242). -/

theorem getElem?_eq_some_resetByte {glyphs : List Byte} {a : Nat} (h : a < glyphs.length) :
    glyphs[a]? = some (resetByte glyphs a) := by
  rw [resetByte, List.getD_eq_getElem _ _ h, List.getElem?_eq_getElem h]

theorem resetByte_of_le {glyphs : List Byte} {a : Nat} (h : glyphs.length ≤ a) : resetByte glyphs a = 0#8 :=
  List.getD_eq_default _ _ h

theorem length_font : font.length = 80 := rfl

/-! The reset state, part by part (70_reset_and_hazards.md R241). -/

@[simp] theorem State.reset_getV (r : Reg) : State.reset.getV r = 0#8 := by
  simp [State.getV, State.reset]

@[simp] theorem State.reset_getKey (k : KeyIdx) : State.reset.key[k] = false := by
  simp [State.reset]

@[simp] theorem State.read_reset_mem (a : Nat) : Memory.read State.reset.mem a = resetByte font a := rfl

theorem State.hostReset_mem_wf (s : State) : Memory.wf s.hostReset.mem := by
  rw [State.hostReset_eq]
  exact Memory.reset_wf

/-! The ROM load, by what its one checked store answers (20_memory.md R52). -/

theorem State.loadRomWith_of_le {glyphs bytes : List Byte} (s : State) (hin : 0x200 + bytes.length ≤ 4096) :
    s.loadRomWith glyphs bytes =
      { s.hostResetWith glyphs with mem := Memory.writeBytes (s.hostResetWith glyphs).mem 0x200 bytes } := by
  rw [State.loadRomWith, (memWrite_ok_iff ..).2 ⟨hin, rfl⟩]

theorem State.loadRomWith_of_gt {glyphs bytes : List Byte} (s : State) (hout : 0x200 + bytes.length > 4096) :
    s.loadRomWith glyphs bytes =
      (s.hostResetWith glyphs).raiseWith none (.address 0x200 bytes.length .write) := by
  rw [State.loadRomWith, (memWrite_error_iff ..).2 ⟨hout, rfl⟩]

end Sys2Proof.Machine
end

section
namespace Sys2Proof.Proofs

open Sys2Proof.Machine

/-- Settles O25: 3584 bytes from 0x200 on end at the end of memory, so the length decides what the checked store does
to the reset state: the run of stores, or the fault and no store. -/
theorem romLoadResetsAndWrites : Obligations.RomLoadResetsAndWrites := by
  refine fun s bytes => ⟨fun hfits => ?_, fun hlong => State.loadRomWith_of_gt s (by omega)⟩
  have hload : s.loadRom bytes = { s.hostReset with mem := Memory.writeBytes s.hostReset.mem 0x200 bytes } :=
    State.loadRomWith_of_le s (by omega)
  obtain ⟨hsorted, -⟩ := State.hostReset_mem_wf s
  rw [hload]
  exact ⟨fun _ hk => Memory.read_writeBytes_same _ 0x200 bytes hsorted hk,
    fun _ => Memory.read_writeBytes_other _ bytes, rfl⟩

/-- Settles O23: the fixed fields as the reset state has them, and memory as its reset contents, where the last byte of
the last glyph stands at 79. -/
theorem resetLeavesListedValues : Obligations.ResetLeavesListedValues := by
  refine ⟨State.hostReset_eq, State.reset_getV, rfl, rfl, rfl, rfl, rfl, blankFb_cell, State.reset_getKey, rfl,
    length_font, fun g j hg hj => ?_, fun a ha _ => ?_⟩
  · have hglyph : 5 * g + j < font.length := by rw [length_font]; omega
    rw [State.read_reset_mem, getElem?_eq_some_resetByte hglyph]
  · rw [State.read_reset_mem, resetByte_of_le (by rwa [length_font])]

end Sys2Proof.Proofs
end

section
namespace Sys2Proof.Proofs

open Sys2Proof.Machine

/-- Settles O2: the fields of the encoder's word are the operands put there, and the two bytes decode as the word
does. -/
theorem decodeOfEncodeIsInstr : Obligations.DecodeOfEncodeIsInstr := by
  intro i hwf
  have hword : decodeWord (encode i) = .ok i := decodeWordWith_encode hwf
  exact ⟨hword, by rw [encodeBytes, decodeBytes_word, hword]⟩

end Sys2Proof.Proofs
end

section
/-! SUPPORT. The frame of every instruction: each operation's own frame, widened to what the table of 10_state.md R20
lists for the instruction. -/

namespace Sys2Proof.Machine

theorem Frame.mono {regs regs' : List Reg} {parts parts' : List Part} {s t : State} (h : Frame regs parts s t)
    (hregs : regs ⊆ regs') (hparts : parts ⊆ parts') : Frame regs' parts' s t := by
  obtain ⟨hkeptRegs, hkeptParts⟩ := h
  exact ⟨fun r hr => hkeptRegs r (mt (@hregs r) hr), fun p hp => hkeptParts p (mt (@hparts p) hp)⟩

theorem Frame.raise (s : State) (f : Fault) : Frame [] [.fault] s (s.raise f) :=
  ⟨fun _ _ => rfl, fun p hp => by cases p <;> simp_all [Part.Same]⟩

theorem Frame.takeDraw (s : State) : Frame [] [.draws] s s.takeDraw :=
  ⟨fun _ _ => rfl, fun p hp => by cases p <;> simp_all [Part.Same]⟩

theorem Frame.storeAtI (s : State) (bs : List Byte) : Frame [] [.mem, .fault] s (s.storeAtI bs) := by
  obtain ⟨m, -, h⟩ | ⟨e, -, h⟩ := s.storeAtI_cases bs
  · exact h ▸ ((Frame.withMem s m).jumpTo _).mono (by simp) (by simp)
  · exact h ▸ (Frame.raise s e).mono (by simp) (by simp)

theorem Frame.skipOnKey (s : State) (x : Reg) (want : Bool) : Frame [] [.fault] s (s.skipOnKey x want) := by
  obtain ⟨k, -, h⟩ | ⟨-, h⟩ := s.skipOnKey_cases x want
  · exact h ▸ (Frame.refl [] [.fault] s).jumpTo _
  · exact h ▸ Frame.raise s _

/-- Each branch of an instruction is one chain of operations, and the frame of the chain lies inside the instruction's
row of the table. -/
theorem exec_frame {i : Instr} {s t : State} (h : exec i s = .next t) : Frame (writtenRegs i) (writtenParts i) s t := by
  cases i with
  | ret =>
    obtain ⟨-, rfl⟩ | ⟨target, -, rfl⟩ := (execRet_eq_next_iff s t).1 h
    · exact (Frame.raise s _).mono (by simp) (by simp [writtenParts])
    · exact ((Frame.withStack s _).jumpTo target).mono (by simp) (by simp [writtenParts])
  | drw x y n =>
    obtain ⟨e, -, rfl⟩ | ⟨bytes, -, rfl⟩ := (execDrw_eq_next_iff x y n s t).1 h
    · exact (Frame.raise s e).mono (by simp) (by simp [writtenParts])
    · exact (((Frame.withFb s _).trans (Frame.setV _ flagReg _)).jumpTo _).mono (by simp [writtenRegs])
        (by simp [writtenParts])
  | ldVMem x =>
    obtain ⟨e, he, rfl⟩ | ⟨bs, hbs, rfl⟩ := (execLdVMem_eq_next_iff x s t).1 h
    · exact (Frame.raise s e).mono (by simp) (by simp [writtenParts])
    · obtain ⟨-, rfl⟩ := (memRead_ok_iff ..).1 hbs
      refine ((Frame.withV fun r hr => ?_).jumpTo _).mono (List.Subset.refl _) (by simp)
      have hpast : x < r := by simpa [writtenRegs] using hr
      exact getElem_loadBlock_readBytes_of_ge s.v s.mem _ hpast
  | ldVxK x =>
    obtain ⟨-, rfl⟩ | ⟨k, -, rfl⟩ := (execLdVxK_eq_next_iff x s t).1 h
    · exact Frame.refl _ _ _
    · exact (Frame.setV s x _).jumpTo _
  | cls =>
    obtain rfl := Host.Outcome.next.inj h
    exact (Frame.withFb s _).jumpTo _
  | call =>
    obtain rfl := Host.Outcome.next.inj h
    exact (Frame.withStack s _).jumpTo _
  | jp | jpV0 | seImm | sneImm | seReg | sneReg =>
    obtain rfl := Host.Outcome.next.inj h
    exact (Frame.refl _ _ s).jumpTo _
  | ldImm | addImm | ldReg | or | and | xor | ldVxDt =>
    obtain rfl := Host.Outcome.next.inj h
    exact (Frame.setV s _ _).jumpTo _
  | addReg | sub | shr | subn | shl =>
    obtain rfl := Host.Outcome.next.inj h
    exact (Frame.setResultFlag s _ _ _).jumpTo _
  | rnd x kk =>
    obtain rfl := Host.Outcome.next.inj h
    exact ((Frame.setV s x _).trans (Frame.takeDraw _)).jumpTo _
  | skp x | sknp x =>
    obtain rfl := Host.Outcome.next.inj h
    exact Frame.skipOnKey s x _
  | ldI | addI | ldF =>
    obtain rfl := Host.Outcome.next.inj h
    exact (Frame.withI s _).jumpTo _
  | ldB | ldMemV =>
    obtain rfl := Host.Outcome.next.inj h
    exact Frame.storeAtI s _
  | ldDtVx =>
    obtain rfl := Host.Outcome.next.inj h
    exact (Frame.withDt s _).jumpTo _
  | ldStVx =>
    obtain rfl := Host.Outcome.next.inj h
    exact (Frame.withSt s _).jumpTo _

end Sys2Proof.Machine
end

section
/-! SUPPORT. The invariant, part by part, under an instruction that a step runs, and then as a whole under the fault entry,
the tick and the step (10_state.md R24, 60_exceptions.md R217). -/

namespace Sys2Proof.Machine

/-! Memory in its one form. -/

theorem State.storeAtI_mem_wf {s : State} (hm : Memory.wf s.mem) (bs : List Byte) : Memory.wf (s.storeAtI bs).mem := by
  obtain ⟨m, hstore, h⟩ | ⟨e, -, h⟩ := s.storeAtI_cases bs
  · rw [h]
    exact memWrite_wf hstore hm
  · rw [h]
    exact hm

@[simp] theorem State.skipOnKey_mem (s : State) (x : Reg) (want : Bool) : (s.skipOnKey x want).mem = s.mem := by
  obtain ⟨k, -, h⟩ | ⟨-, h⟩ := s.skipOnKey_cases x want <;> simp [h]

@[simp] theorem State.rndWith_mem (s : State) (r : Byte) (x : Reg) (kk : Byte) : (s.rndWith r x kk).mem = s.mem := rfl

/-- Two instructions store, through the checked write; the others keep memory as it is. -/
theorem exec_mem_wf {i : Instr} {s t : State} (h : exec i s = .next t) (hm : Memory.wf s.mem) : Memory.wf t.mem := by
  cases i with
  | ret => obtain ⟨-, rfl⟩ | ⟨target, -, rfl⟩ := (execRet_eq_next_iff s t).1 h <;> exact hm
  | drw x y n => obtain ⟨e, -, rfl⟩ | ⟨bytes, -, rfl⟩ := (execDrw_eq_next_iff x y n s t).1 h <;> exact hm
  | ldVMem x => obtain ⟨e, -, rfl⟩ | ⟨bs, -, rfl⟩ := (execLdVMem_eq_next_iff x s t).1 h <;> exact hm
  | ldVxK x => obtain ⟨-, rfl⟩ | ⟨k, -, rfl⟩ := (execLdVxK_eq_next_iff x s t).1 h <;> exact hm
  | ldB | ldMemV =>
    obtain rfl := Host.Outcome.next.inj h
    exact State.storeAtI_mem_wf hm _
  | _ =>
    obtain rfl := Host.Outcome.next.inj h
    simpa using hm

/-! The pc and the return addresses. -/

/-- An advance or a skip from a pc that was fetched from ends at 4098 at most; the four that set the pc take it from the
stack, from `nnn`, or from `nnn + V0`, which is 0xFFF + 0xFF at most. -/
theorem exec_pc_le {i : Instr} {s t : State} (hpc : s.pc.toNat + 2 ≤ 4096) (hstack : ∀ a ∈ s.stack, a.toNat ≤ 0x1000)
    (hown : ownFault i s = none) (h : exec i s = .next t) : t.pc.toNat ≤ 0x10FE := by
  have hnext := exec_advancesPc hown h
  cases i with
  | ret =>
    obtain ⟨-, rfl⟩ | ⟨target, htop, rfl⟩ := (execRet_eq_next_iff s t).1 h
    · rw [State.raise_pc]
      omega
    · have htarget : target.toNat ≤ 0x1000 := hstack _ (List.mem_of_getLast? htop)
      rw [State.jumpTo_pc]
      omega
  | jp nnn | call nnn =>
    obtain rfl := Host.Outcome.next.inj h
    have hnnn := nnn.isLt
    rw [State.jumpTo_pc, toNat_zext16]
    omega
  | jpV0 nnn =>
    obtain rfl := Host.Outcome.next.inj h
    have hnnn := nnn.isLt
    have hv0 := (s.getV 0).isLt
    rw [State.jumpTo_pc, toNat_offsetTarget]
    omega
  | seImm | sneImm | seReg | sneReg | skp | sknp =>
    obtain hskip | hskip := hnext <;> bv_omega
  | ldVxK =>
    simp only [AdvancesPc] at hnext
    split at hnext <;> bv_omega
  | _ =>
    have hadvance : t.pc = s.pc + 2#16 := hnext
    bv_omega

/-- CALL pushes at most 4094 + 2, RET keeps a part of the stack, and no other instruction writes it. -/
theorem exec_stack_le {i : Instr} {s t : State} (hpc : s.pc.toNat + 2 ≤ 4096)
    (hstack : ∀ a ∈ s.stack, a.toNat ≤ 0x1000) (h : exec i s = .next t) : ∀ a ∈ t.stack, a.toNat ≤ 0x1000 := by
  cases i with
  | ret =>
    obtain ⟨-, rfl⟩ | ⟨target, -, rfl⟩ := (execRet_eq_next_iff s t).1 h
    · exact hstack
    · exact fun a ha => hstack a (List.mem_of_mem_dropLast ha)
  | call nnn =>
    obtain rfl := Host.Outcome.next.inj h
    intro a ha
    obtain ha | rfl : a ∈ s.stack ∨ a = s.pc + 2#16 := by simpa using ha
    · exact hstack a ha
    · bv_omega
  | _ =>
    have hkept : t.stack = s.stack := (exec_frame h).2 .stack (by simp [writtenParts])
    rwa [hkept]

/-! The invariant as a whole. -/

theorem State.Inv.raiseWith {s : State} (hinv : s.Inv) (word : Option Word) (f : Fault) : (s.raiseWith word f).Inv := by
  obtain ⟨hm, hpc, hstack, -⟩ := hinv
  exact ⟨hm, hpc, hstack, fun r hr => Option.some.inj hr ▸ rfl⟩

theorem State.Inv.tick {s : State} (hinv : s.Inv) : s.tick.Inv := hinv

/-- An instruction that keeps the halt record keeps the three bounds; one that faults is a fault entry. -/
theorem exec_inv {i : Instr} {s t : State} (hinv : s.Inv) (hrun : s.fault = none) (hpc : s.pc.toNat + 2 ≤ 4096)
    (h : exec i s = .next t) : t.Inv := by
  obtain hkept | ⟨f, rfl⟩ := exec_fault_or_raise h
  · obtain ⟨hm, -, hstack, -⟩ := hinv
    have hnone : t.fault = none := hkept.trans hrun
    have hown : ownFault i s = none := by rw [← exec_fault_cause hrun h, hnone, Option.map_none]
    exact ⟨exec_mem_wf h hm, exec_pc_le hpc hstack hown h, exec_stack_le hpc hstack h, by simp [hnone]⟩
  · exact hinv.raiseWith _ f

theorem step_inv {s t : State} (hinv : s.Inv) (hstep : step s = .next t) : t.Inv := by
  obtain ⟨-, rfl⟩ | ⟨-, f, -, rfl⟩ | ⟨-, w, e, -, -, rfl⟩ | ⟨hrun, w, i, u, hfetch, -, hexec, rfl⟩ :=
    (step_eq_next_iff s t).1 hstep
  · exact hinv
  · exact hinv.raiseWith _ f
  · exact hinv.raiseWith _ .decode
  · have hu : u.Inv := exec_inv hinv hrun ((fetchWord_ok_iff s w).1 hfetch).1 hexec
    split
    · exact hu.tick
    · exact hu

end Sys2Proof.Machine
end

section
namespace Sys2Proof.Proofs

open Sys2Proof.Machine

/-- Settles O18: a halted core stays, a fault entry names the pc, and an instruction runs only at a pc of 4094 or less, so
none of its 16-bit sums wraps. -/
theorem stepKeepsInv : Obligations.StepKeepsInv := fun _ _ => step_inv

/-- Settles O15: constructor by constructor, the frame of what the instruction does. -/
theorem onlyListedPartsAreWritten : Obligations.OnlyListedPartsAreWritten := fun _ _ _ => exec_frame

end Sys2Proof.Proofs
end

section
/-! SUPPORT. A word put together again from its own fields, for each format of the opcode table, and so the word of the
instruction that the decoder answers (30_encoding.md R70 to R72). -/

namespace Sys2Proof

theorem opNnn_fields {w : Word} {op : Nat} (hop : fieldOp w = op) : opNnn op (fieldNnn w).toNat = w := by
  subst hop
  have hw := w.isLt
  apply BitVec.eq_of_toNat_eq
  rw [fieldOp, bitField_op, toNat_opNnn (by omega) (fieldNnn w).isLt, fieldNnn, bitField_nnn, BitVec.toNat_ofNat]
  omega

theorem opXKk_fields {w : Word} {op kk : Nat} (hop : fieldOp w = op) (hkk : bitField w 7 0 = kk) :
    opXKk op (fieldX w).val kk = w := by
  subst hop hkk
  have hw := w.isLt
  rw [fieldOp, bitField_op, bitField_kk]
  apply BitVec.eq_of_toNat_eq
  rw [toNat_opXKk (by omega) (fieldX w).isLt (by omega), fieldX, bitField_x, Fin.val_ofNat]
  omega

theorem bitField_kk_eq_toNat (w : Word) : bitField w 7 0 = (fieldKk w).toNat := by
  rw [fieldKk, bitField_kk, BitVec.toNat_ofNat]
  omega

theorem nibbles_fields {w : Word} {op n : Nat} (hop : fieldOp w = op) (hn : bitField w 3 0 = n) :
    nibbles op (fieldX w).val (fieldY w).val n = w := by
  subst hop hn
  have hw := w.isLt
  rw [fieldOp, bitField_op, bitField_n]
  apply BitVec.eq_of_toNat_eq
  rw [toNat_nibbles (by omega) (fieldX w).isLt (fieldY w).isLt (by omega), fieldX, bitField_x, fieldY, bitField_y,
    Fin.val_ofNat, Fin.val_ofNat]
  omega

theorem bitField_n_eq_val (w : Word) : bitField w 3 0 = (fieldN w).val := by
  rw [fieldN, bitField_n, Fin.val_ofNat]
  omega

theorem fieldOp_lt (w : Word) : fieldOp w < 16 := by
  have hw := w.isLt
  rw [fieldOp, bitField_op]
  omega

/-- `w` is the word of `i`, an instruction that a core with the given `HAS_FX18` has. -/
def IsWordOf (fx18 : Bool) (w : Word) (i : Instr) : Prop := encode i = w ∧ i.wellFormedWith fx18 = true

theorem decodeZero_ok {fx18 : Bool} {w : Word} {i : Instr} (h : decodeZero w = .ok i) : IsWordOf fx18 w i := by
  unfold decodeZero at h
  split at h
  next hw =>
    obtain rfl := Except.ok.inj h
    exact ⟨hw.symm, rfl⟩
  next =>
    split at h
    next hw =>
      obtain rfl := Except.ok.inj h
      exact ⟨hw.symm, rfl⟩
    next => nomatch h

theorem decodeEight_ok {fx18 : Bool} {w : Word} {i : Instr} (hop : fieldOp w = 0x8) (h : decodeEight w = .ok i) :
    IsWordOf fx18 w i := by
  unfold decodeEight at h
  split at h <;> cases h
  all_goals exact ⟨nibbles_fields hop ‹_›, rfl⟩

theorem decodeKey_ok {fx18 : Bool} {w : Word} {i : Instr} (hop : fieldOp w = 0xE) (h : decodeKey w = .ok i) :
    IsWordOf fx18 w i := by
  unfold decodeKey at h
  split_ifs at h with hskp hsknp <;> cases h
  · exact ⟨opXKk_fields hop hskp, rfl⟩
  · exact ⟨opXKk_fields hop hsknp, rfl⟩

theorem decodeMisc_ok {fx18 : Bool} {w : Word} {i : Instr} (hop : fieldOp w = 0xF) (h : decodeMisc fx18 w = .ok i) :
    IsWordOf fx18 w i := by
  unfold decodeMisc at h
  split_ifs at h with h07 h0A h15 h18 h1E h29 h33 h55 h65 <;> cases h
  · exact ⟨opXKk_fields hop h07, rfl⟩
  · exact ⟨opXKk_fields hop h0A, rfl⟩
  · exact ⟨opXKk_fields hop h15, rfl⟩
  · obtain ⟨hkk, hfx18⟩ := h18
    exact ⟨opXKk_fields hop hkk, hfx18⟩
  · exact ⟨opXKk_fields hop h1E, rfl⟩
  · exact ⟨opXKk_fields hop h29, rfl⟩
  · exact ⟨opXKk_fields hop h33, rfl⟩
  · exact ⟨opXKk_fields hop h55, rfl⟩
  · exact ⟨opXKk_fields hop h65, rfl⟩

/-- A word that decodes is the word of its instruction. Case `k + 1` of the match is the family `k`; each answers the
fields of the word in the format that the encoder puts together again. -/
theorem decodeWordWith_ok {fx18 : Bool} {w : Word} {i : Instr} (h : decodeWordWith fx18 w = .ok i) :
    IsWordOf fx18 w i := by
  unfold decodeWordWith at h
  split at h
  case h_1 => exact decodeZero_ok h
  case h_9 hop => exact decodeEight_ok hop h
  case h_15 hop => exact decodeKey_ok hop h
  case h_16 =>
    have hop : fieldOp w = 0xF := by
      have hlt := fieldOp_lt w
      grind
    exact decodeMisc_ok hop h
  case h_2 hop | h_3 hop | h_11 hop | h_12 hop =>
    cases h
    exact ⟨opNnn_fields hop, rfl⟩
  case h_4 hop | h_5 hop | h_7 hop | h_8 hop | h_13 hop =>
    cases h
    exact ⟨opXKk_fields hop (bitField_kk_eq_toNat w), rfl⟩
  case h_6 hop | h_10 hop =>
    split_ifs at h with hn
    cases h
    exact ⟨nibbles_fields hop hn, rfl⟩
  case h_14 hop =>
    cases h
    exact ⟨nibbles_fields hop (bitField_n_eq_val w), rfl⟩

end Sys2Proof
end

section
/-! SUPPORT. The illegal words of the families that the whole word, `n` or `kk` decides (30_encoding.md R72, R77). -/

namespace Sys2Proof

/-- A row of a family is one test: a word is illegal where it fails the test and is illegal for the rows after it. -/
theorem exists_ite_ok_eq_error_iff {P : Prop} [Decidable P] (i : Instr) (r : Except DecodeError Instr) :
    (∃ e, (if P then .ok i else r) = .error e) ↔ ¬ P ∧ ∃ e, r = .error e := by
  split_ifs with hP <;> simp [hP]

theorem decodeZero_error_iff (w : Word) :
    (∃ e, decodeZero w = .error e) ↔ w.toNat ≠ 0x00E0 ∧ w.toNat ≠ 0x00EE := by
  simp [decodeZero, exists_ite_ok_eq_error_iff, BitVec.toNat_eq]

theorem decodeEight_error_iff (w : Word) :
    (∃ e, decodeEight w = .error e) ↔ w.toNat % 16 ∈ [0x8, 0x9, 0xA, 0xB, 0xC, 0xD, 0xF] := by
  have hlt : w.toNat % 16 < 16 := Nat.mod_lt _ (by decide)
  unfold decodeEight
  rw [bitField_n]
  generalize w.toNat % 16 = n at hlt
  interval_cases n <;> simp

theorem decodeKey_error_iff (w : Word) : (∃ e, decodeKey w = .error e) ↔ w.toNat % 256 ∉ [0x9E, 0xA1] := by
  simp [decodeKey, exists_ite_ok_eq_error_iff]

theorem decodeMisc_error_iff (w : Word) : (∃ e, decodeMisc true w = .error e) ↔
    w.toNat % 256 ∉ [0x07, 0x0A, 0x15, 0x18, 0x1E, 0x29, 0x33, 0x55, 0x65] := by
  simp [decodeMisc, exists_ite_ok_eq_error_iff]

end Sys2Proof
end

section
namespace Sys2Proof.Proofs

open Sys2Proof.Machine

/-- Settles O3: the decoder answers the fields of the word, and the encoder puts them together again. -/
theorem encodeOfDecodeIsWord : Obligations.EncodeOfDecodeIsWord := fun _ _ => decodeWordWith_ok

/-- Settles O4: family by family. Ten of the sixteen decode every word; 5 and 9 need `n` to be 0, and the illegal words
of 0, 8, E and F are those of their own decoders. -/
theorem illegalWordsAreExactlyListed : Obligations.IllegalWordsAreExactlyListed := by
  intro w
  have hlt : w.toNat / 4096 < 16 := by
    have hw := w.isLt
    omega
  unfold decodeWord decodeWordWith hasFx18
  rw [fieldOp, bitField_op]
  generalize w.toNat / 4096 = op at hlt
  interval_cases op <;>
    simp [-List.mem_cons, exists_ite_ok_eq_error_iff, decodeZero_error_iff, decodeEight_error_iff,
      decodeKey_error_iff, decodeMisc_error_iff]

/-- Settles O1: the decoder evaluated on sixteen fixed words. -/
theorem sampleWordsDecode : Obligations.SampleWordsDecode := by
  unfold Obligations.SampleWordsDecode
  decide

end Sys2Proof.Proofs
end

section
/-! SUPPORT. The step on each of its branches, and that no branch stops outside the state (30_encoding.md R73,
60_exceptions.md R217). -/

namespace Sys2Proof.Machine

theorem step_of_fetchWord_error {s : State} {f : Fault} (hrun : s.fault = none) (hfetch : fetchWord s = .error f) :
    step s = .next (s.raiseWith none f) :=
  (step_eq_next_iff s _).2 (.inr (.inl ⟨hrun, f, hfetch, rfl⟩))

theorem step_of_decodeWord_error {s : State} {w : Word} {e : DecodeError} (hrun : s.fault = none)
    (hfetch : fetchWord s = .ok w) (hdecode : decodeWord w = .error e) :
    step s = .next (s.raiseWith (some w) .decode) :=
  (step_eq_next_iff s _).2 (.inr (.inr (.inl ⟨hrun, w, e, hfetch, hdecode, rfl⟩)))

/-- The four instructions that branch answer on both of their branches, and the rest have one. -/
theorem exec_answers_next (i : Instr) (s : State) : ∃ t, exec i s = .next t := by
  cases i with
  | ret =>
    obtain hempty | ⟨below, top, hstack⟩ := s.stack.eq_nil_or_concat
    · exact ⟨_, execRet_of_stack_nil hempty⟩
    · exact ⟨_, execRet_of_stack_append (hstack.trans List.concat_eq_append)⟩
  | drw x y n =>
    obtain hin | hout := le_or_gt (dataAddr s + n.val) 4096
    · obtain ⟨q, -, hexec⟩ := execDrw_of_le (x := x) (y := y) hin
      exact ⟨_, hexec⟩
    · exact ⟨_, execDrw_of_gt hout⟩
  | ldVMem x =>
    obtain hin | hout := le_or_gt (dataAddr s + (x.val + 1)) 4096
    · exact ⟨_, execLdVMem_of_le hin⟩
    · exact ⟨_, execLdVMem_of_gt hout⟩
  | ldVxK x =>
    cases hfirst : firstPressed s.key with
    | none => exact ⟨_, (execLdVxK_eq_next_iff x s _).2 (.inl ⟨hfirst, rfl⟩)⟩
    | some k => exact ⟨_, (execLdVxK_eq_next_iff x s _).2 (.inr ⟨k, hfirst, rfl⟩)⟩
  | _ => exact ⟨_, rfl⟩

theorem step_answers_next (s : State) : ∃ t, step s = .next t := by
  by_cases hrun : s.fault = none
  · cases hfetch : fetchWord s with
    | error f => exact ⟨_, step_of_fetchWord_error hrun hfetch⟩
    | ok w =>
      cases hdecode : decodeWord w with
      | error e => exact ⟨_, step_of_decodeWord_error hrun hfetch hdecode⟩
      | ok i =>
        obtain ⟨u, hexec⟩ := exec_answers_next i s
        exact ⟨_, step_of_exec ⟨hrun, w, hfetch, hdecode⟩ hexec⟩
  · exact ⟨s, step_of_halted hrun⟩

end Sys2Proof.Machine
end

section
/-! SUPPORT. The timers along a step (43_keys_timers.md R173). -/

namespace Sys2Proof.Machine

/-- A step that runs an instruction and does not fault ticks what the instruction left. -/
theorem step_eq_tick_of_no_fault {s t : State} {i : Instr} (hfetch : FetchesInstr s i) (hstep : step s = .next t)
    (hok : t.fault = none) : ∃ u, exec i s = .next u ∧ t = u.tick := by
  obtain ⟨u, hexec⟩ := exec_answers_next i s
  obtain rfl := Host.Outcome.next.inj ((step_of_exec hfetch hexec).symm.trans hstep)
  have hu : u.fault = none := by
    by_contra hsome
    rw [if_neg hsome] at hok
    exact hsome hok
  exact ⟨u, hexec, if_pos hu⟩

/-! Each timer is listed for its own setter alone (10_state.md R20). -/

theorem dt_notMem_writtenParts {i : Instr} (hi : ∀ x, i ≠ .ldDtVx x) : Part.dt ∉ writtenParts i := by
  cases i with
  | ldDtVx x => exact absurd rfl (hi x)
  | _ => simp [writtenParts]

theorem st_notMem_writtenParts {i : Instr} (hi : ∀ x, i ≠ .ldStVx x) : Part.st ∉ writtenParts i := by
  cases i with
  | ldStVx x => exact absurd rfl (hi x)
  | _ => simp [writtenParts]

/-! The spin state (60_exceptions.md section 5). -/

/-- The tick touches neither pc, memory nor the halt record, so the same instruction is fetched after it. -/
theorem FetchesInstr.tick {s : State} {i : Instr} (hfetch : FetchesInstr s i) : FetchesInstr s.tick i := hfetch

theorem step_of_jp_to_self {s : State} {nnn : Addr12} (hfetch : FetchesInstr s (.jp nnn))
    (hpc : s.pc.toNat = nnn.toNat) : step s = .next s.tick := by
  have hself : s.jumpTo (zext16 nnn) = s := by
    rw [show zext16 nnn = s.pc from BitVec.eq_of_toNat_eq ((toNat_zext16 nnn).trans hpc.symm)]
    rfl
  have hexec : exec (.jp nnn) s = .next s := congrArg Host.Outcome.next hself
  exact step_of_exec_of_fault_eq hfetch hexec rfl

theorem core_run_of_jp_to_self {s : State} {nnn : Addr12} (hfetch : FetchesInstr s (.jp nnn))
    (hpc : s.pc.toNat = nnn.toNat) (k : Nat) :
    ∃ t : State, core.run k s = .next t ∧ t = { s with dt := t.dt, st := t.st } ∧
      t.dt.toNat = s.dt.toNat - k ∧ t.st.toNat = s.st.toNat - k := by
  induction k generalizing s with
  | zero => exact ⟨s, run_zero core s, rfl, rfl, rfl⟩
  | succ k ih =>
    obtain ⟨t, hrun, hframe, hdt, hst⟩ := ih hfetch.tick hpc
    refine ⟨t, (core_run_succ k (step_of_jp_to_self hfetch hpc)).trans hrun, hframe, ?_, ?_⟩
    · rw [hdt, State.tick_dt, toNat_countDown, Nat.sub_sub, Nat.add_comm]
    · rw [hst, State.tick_st, toNat_countDown, Nat.sub_sub, Nat.add_comm]

end Sys2Proof.Machine
end

section
/-! SUPPORT. What each host operation does to the invariant, whatever `FONT` is, and a placed word as the next fetch
reads it (70_reset_and_hazards.md R240 to R243). -/

namespace Sys2Proof.Machine

theorem State.hostResetWith_inv {glyphs : List Byte} (hlen : glyphs.length ≤ 4096) (s : State) :
    (s.hostResetWith glyphs).Inv := by
  refine ⟨Memory.seeded_wf hlen, ?_, ?_, ?_⟩ <;> simp [State.reset]

theorem State.loadRomWith_inv {glyphs : List Byte} (hlen : glyphs.length ≤ 4096) (s : State) (bytes : List Byte) :
    (s.loadRomWith glyphs bytes).Inv := by
  have hreset := s.hostResetWith_inv hlen
  obtain hin | hout := le_or_gt (0x200 + bytes.length) 4096
  · obtain ⟨hm, hrest⟩ := hreset
    rw [State.loadRomWith_of_le s hin]
    exact ⟨Memory.writeBytes_wf bytes hm hin, hrest⟩
  · rw [State.loadRomWith_of_gt s hout]
    exact hreset.raiseWith none _

theorem State.Inv.setKey {s : State} (hinv : s.Inv) (k : KeyIdx) (b : Bool) : (s.setKey k b).Inv := hinv

theorem State.read_loadRomWith_of_lt {glyphs : List Byte} (s : State) (bytes : List Byte) {a : Nat} (ha : a < 0x200) :
    Memory.read (s.loadRomWith glyphs bytes).mem a = Memory.read (s.hostResetWith glyphs).mem a := by
  obtain hin | hout := le_or_gt (0x200 + bytes.length) 4096
  · rw [State.loadRomWith_of_le s hin]
    exact Memory.read_writeBytes_other _ bytes (.inl ha)
  · rw [State.loadRomWith_of_gt s hout, State.raiseWith_mem]

/-! A placed word (log entry 12). -/

theorem State.placeWord_mem (s : State) (w : Word) :
    (s.placeWord w).mem = Memory.writeBytes s.mem (s.placeWord w).pc.toNat [highByte w, lowByte w] := rfl

theorem State.placeWord_pc_le (s : State) (w : Word) : (s.placeWord w).pc.toNat + 2 ≤ 4096 := by
  simp only [State.placeWord]
  split
  next hpc => exact hpc
  next => decide

theorem State.placeWord_mem_wf {s : State} (hm : Memory.wf s.mem) (w : Word) : Memory.wf (s.placeWord w).mem := by
  rw [State.placeWord_mem]
  exact Memory.writeBytes_wf _ hm (s.placeWord_pc_le w)

theorem fetchWord_placeWord {s : State} (hm : Memory.wf s.mem) (w : Word) : fetchWord (s.placeWord w) = .ok w := by
  obtain ⟨hsorted, -⟩ := hm
  have hread : ∀ k (hk : k < 2), Memory.read (s.placeWord w).mem ((s.placeWord w).pc.toNat + k) =
      [highByte w, lowByte w][k] := fun k hk => by
    rw [State.placeWord_mem]
    exact Memory.read_writeBytes_same s.mem _ _ hsorted hk
  refine (fetchWord_ok_iff _ w).2 ⟨s.placeWord_pc_le w, ?_⟩
  rw [hread 1 (by decide), ← Nat.add_zero (s.placeWord w).pc.toNat, hread 0 (by decide)]
  exact (wordOfBytes_bytes w).symm

end Sys2Proof.Machine
end

section
/-! SUPPORT. The two values that a flag-setting instruction leaves in whatever state it answers (41_alu.md R121). -/

namespace Sys2Proof.Machine

theorem exec_setsResultFlag_getV {i : Instr} {s t : State} {x : Reg} {b : Byte} {c : Bool}
    (hexec : exec i s = .next (s.setResultFlag x b c).advance) (hx : x ≠ flagReg) (h : exec i s = .next t) :
    t.getV x = b ∧ t.getV flagReg = bitByte c := by
  obtain ⟨u, hu, hresult, hflag, -⟩ := exec_setsResultFlag hexec
  obtain rfl := Host.Outcome.next.inj (hu.symm.trans h)
  exact ⟨hresult hx, hflag⟩

end Sys2Proof.Machine
end

section
namespace Sys2Proof.Proofs

open Sys2Proof.Machine

/-- Settles O12: every branch of an instruction and of a step is a next state, the faulting ones included. -/
theorem everyStepAnswersNext : Obligations.EveryStepAnswersNext := ⟨exec_answers_next, step_answers_next⟩

/-- Settles O5: the branch of a step that fetches and decodes, with the tick written out. -/
theorem stepRunsDecodedInstruction : Obligations.StepRunsDecodedInstruction := fun _ _ _ => step_of_exec

/-- Settles O7: from 4095 on the fetch faults, and its fault entry holds no word. -/
theorem fetchFaultIsRecorded : Obligations.FetchFaultIsRecorded := fun s hrun hpc =>
  step_of_fetchWord_error hrun ((fetchWord_error_iff s _).2 ⟨hpc, rfl⟩)

/-- Settles O8: the fault entry of a word that does not decode holds that word. -/
theorem decodeFaultIsRecorded : Obligations.DecodeFaultIsRecorded := fun _ _ _ => step_of_decodeWord_error

/-- Settles O21: an instruction other than a timer's setter keeps the timer, and the tick takes one off. -/
theorem timersFallUnlessSet : Obligations.TimersFallUnlessSet := by
  intro s t i hfetch hstep hok
  obtain ⟨u, hexec, rfl⟩ := step_eq_tick_of_no_fault hfetch hstep hok
  obtain ⟨-, hparts⟩ := exec_frame hexec
  refine ⟨fun hi => ?_, fun hi => ?_⟩
  · have hkept : u.dt = s.dt := hparts .dt (dt_notMem_writtenParts hi)
    rw [State.tick_dt, toNat_countDown, hkept]
  · have hkept : u.st = s.st := hparts .st (st_notMem_writtenParts hi)
    rw [State.tick_st, toNat_countDown, hkept]

/-- Settles O22: a step in a spin state is a tick, and induction on their number adds the ticks up. -/
theorem spinStateOnlyTicks : Obligations.SpinStateOnlyTicks := fun _ _ => core_run_of_jp_to_self

/-- Settles O17: the reset state is what the host's reset makes of it. -/
theorem invHoldsAtReset : Obligations.InvHoldsAtReset := by
  have hinv : State.reset.hostReset.Inv := State.hostResetWith_inv (by decide) State.reset
  rwa [State.hostReset_eq] at hinv

/-- Settles O19: reset and ROM load give the invariant with any `FONT` that memory holds; the setter writes KEY alone.
-/
theorem hostOperationsKeepInv : Obligations.HostOperationsKeepInv :=
  ⟨State.hostResetWith_inv (by decide), State.loadRomWith_inv (by decide), fun _ k b hinv => hinv.setKey k b⟩

/-- Settles O24: memory reads as the glyphs and then 0, and a ROM goes in from 0x200 on, past the last glyph byte at
79. -/
theorem resetTakesAnyFont : Obligations.ResetTakesAnyFont := by
  refine ⟨fun glyphs s hlen => ?_, State.resetWith_font⟩
  have hmem : ∀ a, Memory.read (s.hostResetWith glyphs).mem a = resetByte glyphs a := Memory.read_seeded hlen
  have hfits : glyphs.length ≤ 4096 := by omega
  refine ⟨fun g j hg hj => ?_, fun a ha _ => ?_, ?_, State.read_loadRomWith_of_lt s, s.hostResetWith_inv hfits,
    s.loadRomWith_inv hfits⟩
  · rw [hmem, getElem?_eq_some_resetByte (by omega)]
  · rw [hmem, resetByte_of_le (by omega)]
  · rw [State.hostReset_eq]
    rfl

/-- Settles O27: the pc is left where two bytes lie in memory, and the fetch reads the two stored ones back. -/
theorem placedWordIsFetchedNext : Obligations.PlacedWordIsFetchedNext := by
  intro s w hm hw
  have htable : tableWord 16 w = BitVec.ofNat 16 w := congrArg (BitVec.ofNat 16) (Nat.mod_eq_of_lt hw)
  rw [State.withFetchWord, htable]
  exact ⟨rfl, fetchWord_placeWord hm _, State.placeWord_mem_wf hm _⟩

/-- Settles O44: the wrapped difference and the strict flag of SUB, with the operands exchanged. -/
theorem subnReversesSub : Obligations.SubnReversesSub := by
  refine fun s x y => ⟨decodeWord_of_encode_eq rfl rfl, ?_⟩
  obtain ⟨t, hexec, hresult, hflag, hrest⟩ := exec_setsResultFlag (i := .subn x y) (s := s) rfl
  exact ⟨t, hexec, fun hx => hresult hx ▸ intCast_toNat_diffByte _ _, hflag ▸ toNat_bitByte_strictlyAbove _ _, hrest⟩

/-- Settles O47: one register write of the draw AND `kk`, whose bit is 0 where that of `kk` is. -/
theorem rndMasksOneDraw : Obligations.RndMasksOneDraw := by
  intro s x kk
  have hresult : (s.rndWith s.nextDraw x kk).getV x = s.nextDraw &&& kk := State.setV_getV_same s x _
  refine ⟨decodeWord_of_encode_eq rfl rfl, s.rndWith s.nextDraw x kk, rfl, hresult, fun b hb => ?_, rfl, rfl,
    exec_frame (i := .rnd x kk) rfl⟩
  rw [hresult, BitVec.getLsbD_and, hb, Bool.and_false]

/-- Settles O46: with x not F both written values stand, each the number its rule names, and the laws are sums of
these. -/
theorem carryAndShiftLaws : Obligations.CarryAndShiftLaws := by
  intro s t x y hx
  have ha := (s.getV x).isLt
  have hb := (s.getV y).isLt
  refine ⟨fun h => ?_, fun h => ?_, fun h => ?_, fun h => ?_⟩
  · obtain ⟨hresult, hflag⟩ := exec_setsResultFlag_getV rfl hx h
    rw [hresult, hflag, toNat_sumByte, toNat_bitByte_carryOut]
    split <;> omega
  · obtain ⟨hresult, hflag⟩ := exec_setsResultFlag_getV rfl hx h
    rw [hresult, hflag, toNat_diffByte, bitByte_eq_one_iff, strictlyAbove, decide_eq_true_iff]
    refine ⟨fun hge => ⟨by omega, by omega⟩, fun hlt => ⟨by omega, ?_⟩⟩
    rw [decide_eq_false (by omega)]
    rfl
  · obtain ⟨hresult, hflag⟩ := exec_setsResultFlag_getV rfl hx h
    rw [hresult, hflag, toNat_shrByte, toNat_bitByte_lowBit]
    omega
  · obtain ⟨hresult, hflag⟩ := exec_setsResultFlag_getV rfl hx h
    rw [hresult, hflag, toNat_shlByte, toNat_bitByte_topBit]
    omega

end Sys2Proof.Proofs
end

section
/-! SUPPORT. A sprite covers some cell exactly if it has a set bit, and two draws of it undo each other (42_display.md
R152). -/

namespace Sys2Proof.Machine

theorem spriteBit_eq_getLsbD (byte : Byte) (b : Nat) : spriteBit byte b = byte.getLsbD (7 - b) :=
  (Nat.testBit_eq_decide_div_mod_eq).symm

theorem exists_spriteBit_iff (byte : Byte) : (∃ b, b < 8 ∧ spriteBit byte b = true) ↔ byte ≠ 0#8 := by
  simp only [spriteBit_eq_getLsbD]
  constructor
  · rintro ⟨b, -, hbit⟩ rfl
    simp at hbit
  · contrapose!
    intro hzero
    refine BitVec.eq_of_getLsbD_eq fun j hj => ?_
    have hbit := hzero (7 - j) (by omega)
    rw [show 7 - (7 - j) = j by omega] at hbit
    simpa using hbit

theorem exists_rowCovers_iff (x : Nat) (byte : Byte) : (∃ col, RowCovers x byte col) ↔ byte ≠ 0#8 := by
  rw [← exists_spriteBit_iff]
  constructor
  · rintro ⟨col, b, hb, -, hbit⟩
    exact ⟨b, hb, hbit⟩
  · rintro ⟨b, hb, hbit⟩
    exact ⟨Fin.ofNat 64 (x + b), b, hb, rfl, hbit⟩

theorem exists_bytesCover_iff (bytes : List Byte) (x y : Nat) :
    (∃ row col, BytesCover bytes x y row col) ↔ ∃ byte ∈ bytes, byte ≠ 0#8 := by
  constructor
  · rintro ⟨row, col, k, byte, hk, -, hcol⟩
    exact ⟨byte, List.mem_of_getElem? hk, (exists_rowCovers_iff x byte).1 ⟨col, hcol⟩⟩
  · rintro ⟨byte, hmem, hne⟩
    obtain ⟨k, hk⟩ := List.mem_iff_getElem?.1 hmem
    obtain ⟨col, hcol⟩ := (exists_rowCovers_iff x byte).2 hne
    exact ⟨Fin.ofNat 32 (y + k), col, k, byte, hk, rfl, hcol⟩

theorem Framebuffer.ext {fb fb' : Framebuffer} (h : ∀ (r : Fin 32) (c : Fin 64), fb[r][c] = fb'[r][c]) : fb = fb' :=
  Vector.ext fun r hr => Vector.ext fun c hc => h ⟨r, hr⟩ ⟨c, hc⟩

/-- The second draw toggles the cells of the first, whatever either collides with. -/
theorem Toggles.twice {covers : Fin 32 → Fin 64 → Prop} {fb : Framebuffer} {hit hit' : Bool}
    {q u : Framebuffer × Bool} (hpq : Toggles covers (fb, hit) q) (hqu : Toggles covers (q.1, hit') u) : u.1 = fb := by
  refine Framebuffer.ext fun r c => ?_
  by_cases hc : covers r c
  · rw [hqu.covered r c hc, hpq.covered r c hc, Bool.not_not]
  · rw [hqu.uncovered r c hc, hpq.uncovered r c hc]

end Sys2Proof.Machine
end

section
namespace Sys2Proof.Proofs

open Sys2Proof.Machine

/-- Settles O49: at most 15 rows share no cell, so each draw toggles the sprite's cells. On the blank display none of them
is 1 before the first draw, and all are before the second, which therefore collides iff there is one. -/
theorem drawingTwiceRestores : Obligations.DrawingTwiceRestores := by
  intro fb x y bytes hlen
  have hdraw := fun fb => drawSprite_toggles fb x y (bytes := bytes) (by omega)
  refine ⟨(hdraw fb).twice (hdraw _), ?_, ?_⟩
  · rw [← Bool.not_eq_true, (hdraw blankFb).hit_iff]
    rintro (hfalse | ⟨r, c, -, hlit⟩)
    · exact Bool.false_ne_true hfalse
    · exact Bool.false_ne_true ((blankFb_cell r c).symm.trans hlit)
  · have hlit : ∀ r c, BytesCover bytes x y r c → (drawSprite blankFb x y bytes).1[r][c] = true := fun r c hc => by
      rw [(hdraw blankFb).covered r c hc, blankFb_cell, Bool.not_false]
    rw [(hdraw _).hit_iff, or_iff_right Bool.false_ne_true, ← exists_bytesCover_iff bytes x y]
    exact exists₂_congr fun r c => and_iff_left_of_imp (hlit r c)

end Sys2Proof.Proofs
end
